-- ==== Sys2Proof/Word.lean ====
section
/-! DEFINITION. The fixed widths of the block: a register, a lane, a symbol, a 40-bit group or token value. -/

namespace Sys2Proof

/-- A register, a command word, the value of one host access (00_scope.md R8, REG_WIDTH). -/
abbrev Word := BitVec 64

/-- One lane: a byte of a group or a character of a token (R8, CHAR_BITS; R45). -/
abbrev Byte := BitVec 8

/-- A symbol, the 5-bit value one character stands for (R8, SYMBOL_BITS; R13). -/
abbrev Symbol := BitVec 5

/-- An alphabet index, 0 to 35, in 6 bits (10_state.md R21). -/
abbrev Index := BitVec 6

/-- The 40-bit value of a group (41_encoder.md R101) or of a token (42_decoder.md R123). -/
abbrev Group := BitVec 40

end Sys2Proof
end

