-- ==== Sys2Proof/Config.lean ====
section
/-! DEFINITION. What is fixed for the block: the parameters of 00_scope.md R8 and the alphabet ROM of 10_state.md R21.
`CODEC_BASE` is no constant here: the spec leaves it open, and it is the field `State.codecBase` that every statement
quantifies over (log 1). -/

namespace Sys2Proof.Config

/-- WINDOW_SIZE: bytes of the register window (R8, R41). -/
def windowSize : Nat := 0x20

/-- REG_WIDTH: the only access width of the port, in bits (R8, R43). -/
def accessBits : Nat := 64

/-- GROUP_BYTES: bytes of a full group (R8). -/
def groupBytes : Nat := 5

/-- TOKEN_CHARS: characters of a full token (R8). -/
def tokenChars : Nat := 8

/-- ALPHABET_SIZE (R8). -/
def alphabetSize : Nat := 36

/-- REACHABLE_SYMBOLS: the entries ENC can emit are those of indices below it (R8, R84). -/
def reachableSymbols : Nat := 32

/-- The letters `'a'` to `'z'`, indices 0 to 25 (R21). PRESUMED, log 12: the codes are ASCII, which the spec itself
takes from general knowledge (D7, G1). -/
def romLetters : List Byte :=
  [0x61, 0x62, 0x63, 0x64, 0x65, 0x66, 0x67, 0x68, 0x69, 0x6A, 0x6B, 0x6C, 0x6D,
   0x6E, 0x6F, 0x70, 0x71, 0x72, 0x73, 0x74, 0x75, 0x76, 0x77, 0x78, 0x79, 0x7A]

/-- The digits `'0'` to `'9'`, indices 26 to 35 (R21); PRESUMED codes, log 12. -/
def romDigits : List Byte :=
  [0x30, 0x31, 0x32, 0x33, 0x34, 0x35, 0x36, 0x37, 0x38, 0x39]

/-- The alphabet ROM: entry `i` is the `i`-th character of "abcdefghijklmnopqrstuvwxyz0123456789" (R21). It is a constant
of the configuration and no part of State, as R23 says. -/
def rom : List Byte := romLetters ++ romDigits

/-- The terminator's code, NUL (R13, G2). -/
def terminator : Byte := 0x00

end Sys2Proof.Config
end

