-- ==== Sys2Proof/Syntax.lean ====
section
/-! DEFINITION. The six commands of B32C (30_encoding.md R65) and the causes for which a word is no command (R67, R170). -/

namespace Sys2Proof

/-- One constructor per row of the opcode map (R65), with the fields the row uses. -/
inductive Instr where
  | nop
  /-- `n` is field N: the byte count of the group (R62). -/
  | enc (n : BitVec 3)
  | dec
  /-- `i` is field ARG read as an alphabet index (R63). -/
  | lut (i : Byte)
  /-- `c` is field ARG read as a character code (R63). -/
  | rlut (c : Byte)
  | clr
  deriving DecidableEq, Repr

/-- Why a word is illegal: the five causes of 60_exceptions.md R170, in the order in which R67 checks them. ECODE values 6
to 15 are never recorded and have no constructor (V6). -/
inductive IllegalCause where
  /-- OP is 0x6 to 0xF. -/
  | reservedOp
  /-- Bit 7 or one of bits 63:16 is set. -/
  | reservedBits
  /-- N is non-zero outside ENC, or ARG is non-zero outside LUT and RLUT. -/
  | unusedField
  /-- ENC with N of 6 or 7. -/
  | badCount
  /-- LUT with ARG of 36 or more. -/
  | badIndex
  deriving DecidableEq, Repr

end Sys2Proof
end

