-- ==== Sys2Proof/WellFormed.lean ====
section
/-! DEFINITION. Which instructions are commands of B32C: the operand ranges of 30_encoding.md R65. -/

namespace Sys2Proof

/-- ENC takes a count of at most 5 (R62), LUT an index of at most 35 (R63); RLUT takes every code (R63), and the other
commands have no operand. -/
def Instr.wf : Instr → Bool
  | .nop => true
  | .enc n => n.toNat ≤ Config.groupBytes
  | .dec => true
  | .lut i => i.toNat < Config.alphabetSize
  | .rlut _ => true
  | .clr => true

end Sys2Proof
end

