-- ==== Sys2Proof/Decode.lean ====
section
/-! DEFINITION. The command word of 30_encoding.md: its fields (R60), the legality rule (R67), the decoder (R68), the encoder
(R72), and the opcode map (R65). -/

namespace Sys2Proof

/-- Field OP = CMD[3:0] (R61). -/
def opField (v : Word) : BitVec 4 := v.extractLsb' 0 4

/-- Field N = CMD[6:4] (R62). -/
def nField (v : Word) : BitVec 3 := v.extractLsb' 4 3

/-- The reserved bit CMD[7] (R64). -/
def reservedBit7 (v : Word) : BitVec 1 := v.extractLsb' 7 1

/-- Field ARG = CMD[15:8] (R63). -/
def argField (v : Word) : Byte := v.extractLsb' 8 8

/-- The reserved bits CMD[63:16] (R64). -/
def reservedHigh (v : Word) : BitVec 48 := v.extractLsb' 16 48

/-- ECODE of a cause (60_exceptions.md R170). -/
def IllegalCause.code : IllegalCause → BitVec 4
  | .reservedOp => 1
  | .reservedBits => 2
  | .unusedField => 3
  | .badCount => 4
  | .badIndex => 5

/-- R67: the FIRST of the five conditions that holds, in the order 1 to 5; none when the word is legal. -/
def illegalCause (v : Word) : Option IllegalCause :=
  if 0x6 ≤ (opField v).toNat then some .reservedOp
  else if reservedHigh v ≠ 0 ∨ reservedBit7 v ≠ 0 then some .reservedBits
  else if (nField v ≠ 0 ∧ opField v ≠ 0x1) ∨ (argField v ≠ 0 ∧ opField v ≠ 0x3 ∧ opField v ≠ 0x4) then
    some .unusedField
  else if opField v = 0x1 ∧ 6 ≤ (nField v).toNat then some .badCount
  else if opField v = 0x3 ∧ 36 ≤ (argField v).toNat then some .badIndex
  else none

/-- The command a legal word selects (R68). The last arm is never reached from `decode`: an OP of 6 or more is illegal. -/
def selectCommand (v : Word) : Except IllegalCause Instr :=
  match (opField v).toNat with
  | 0x0 => .ok .nop
  | 0x1 => .ok (.enc (nField v))
  | 0x2 => .ok .dec
  | 0x3 => .ok (.lut (argField v))
  | 0x4 => .ok (.rlut (argField v))
  | 0x5 => .ok .clr
  | _ => .error .reservedOp

/-- The decoder, total on every 64-bit word: an illegal word is rejected by the name of its cause (R67, R68, R69). -/
def decode (v : Word) : Except IllegalCause Instr :=
  match illegalCause v with
  | some c => .error c
  | none => selectCommand v

/-- A command word from its fields, every reserved bit 0 (format F1, R60). -/
def commandWord (op : BitVec 4) (n : BitVec 3) (arg : Byte) : Word :=
  0#48 ++ arg ++ 0#1 ++ n ++ op

/-- The encoder: the words of R72's statements `nop`, `enc N`, `dec`, `lut I`, `rlut C`, `clr`. -/
def encode : Instr → Word
  | .nop => commandWord 0x0 0 0
  | .enc n => commandWord 0x1 n 0
  | .dec => commandWord 0x2 0 0
  | .lut i => commandWord 0x3 0 i
  | .rlut c => commandWord 0x4 0 c
  | .clr => commandWord 0x5 0 0

/-- What the host's probe asks for: the instruction the decoder reads from the table's `nbits` bits `w`, every higher bit
0. Bit 0 of `w` is bit 0 of CMD: the one format has a single 64-bit word (R60, R70). -/
def decodeTableWord (nbits w : Nat) : Option Instr :=
  match decode (BitVec.ofNat 64 (w % 2 ^ nbits)) with
  | .ok i => some i
  | .error _ => none

/-- A row of the opcode map: a word belongs to it when `word &&& mask = pattern` (R65). -/
structure OpcodeRow where
  mnemonic : String
  pattern : Word
  mask : Word
  deriving DecidableEq, Repr

/-- The opcode map as R65 prints it, in its order. -/
def opcodeMap : List OpcodeRow :=
  [⟨"NOP", 0x0000000000000000, 0xFFFFFFFFFFFFFFFF⟩,
   ⟨"ENC", 0x0000000000000001, 0xFFFFFFFFFFFFFF8F⟩,
   ⟨"DEC", 0x0000000000000002, 0xFFFFFFFFFFFFFFFF⟩,
   ⟨"LUT", 0x0000000000000003, 0xFFFFFFFFFFFF00FF⟩,
   ⟨"RLUT", 0x0000000000000004, 0xFFFFFFFFFFFF00FF⟩,
   ⟨"CLR", 0x0000000000000005, 0xFFFFFFFFFFFFFFFF⟩]

/-- The row of an instruction (R65). -/
def Instr.row : Instr → OpcodeRow
  | .nop => ⟨"NOP", 0x0000000000000000, 0xFFFFFFFFFFFFFFFF⟩
  | .enc _ => ⟨"ENC", 0x0000000000000001, 0xFFFFFFFFFFFFFF8F⟩
  | .dec => ⟨"DEC", 0x0000000000000002, 0xFFFFFFFFFFFFFFFF⟩
  | .lut _ => ⟨"LUT", 0x0000000000000003, 0xFFFFFFFFFFFF00FF⟩
  | .rlut _ => ⟨"RLUT", 0x0000000000000004, 0xFFFFFFFFFFFF00FF⟩
  | .clr => ⟨"CLR", 0x0000000000000005, 0xFFFFFFFFFFFFFFFF⟩

end Sys2Proof
end

