-- ==== Sys2Proof/Machine/State.lean ====
section
/-! DEFINITION. The state of the block, plain data: the four registers of 10_state.md R20 (STATUS as its fields), the level
of the reset input, the platform's base address, and the model's own two fields that stand for the host. -/

namespace Sys2Proof.Machine

/-- Reasons for which the machine stops with a fault. THERE IS NONE: "No command and no access can stop the block"
(93_implementation_defined.md, closing line of section 2). IllegalCommand is an exception the block takes as a NEXT state
(60_exceptions.md R172). -/
inductive Fault where
  deriving DecidableEq, Repr

/-- Reasons for which a step has no meaning. -/
inductive Refusal where
  /-- Raised only by an arm of `exec` for an instruction without a meaning; no arm does. Safe. -/
  | notModelled (mnemonic : String)
  /-- Raised by the port for an access that is not 64 bits wide: the port has none, and what a host bus does with it is the
  platform's (20_memory.md R43; V9 `refuse`). Safe. -/
  | accessNot64Bits
  /-- Raised by the port for an address outside the register window: it does not reach the block (20_memory.md R42; V9
  `refuse`). Safe. -/
  | accessOutsideWindow
  deriving DecidableEq, Repr

/-- The four registers of the window (20_memory.md R41). -/
inductive Reg where
  | cmd
  | status
  | din
  | dout
  deriving DecidableEq, Repr

/-- STATUS as its fields (10_state.md R27). The reserved bits store nothing: they always read 0 (R34), in `Status.word`. -/
structure Status where
  /-- STATUS[3:0] (R28). -/
  len : BitVec 4
  /-- STATUS[7:4] (R29). -/
  tlen : BitVec 4
  /-- STATUS[8] (R30). -/
  hit : Bool
  /-- STATUS[9] (R31). -/
  last : Bool
  /-- STATUS[16], sticky (R32). -/
  err : Bool
  /-- STATUS[23:20] (R33). -/
  ecode : BitVec 4
  deriving DecidableEq, Repr

/-- STATUS after reset and after CLR: every field 0 (R39, R141). -/
def Status.zero : Status :=
  { len := 0, tlen := 0, hit := false, last := false, err := false, ecode := 0 }

/-- One host access to an address (20_memory.md R41 to R43): a read when `write` is none, else a write of that word. `bits`
is its width; the port carries only 64. -/
structure Access where
  address : Nat
  bits : Nat
  write : Option Word
  deriving DecidableEq, Repr

/-- What the outside world can do to the block: a host access (R12), a change of the reset input (R190), the return of
power (R184). -/
inductive HostEvent where
  | access (a : Access)
  | assertReset
  | releaseReset
  | powerRestored
  deriving DecidableEq, Repr

/-- The whole state. The alphabet ROM is a constant of the configuration, as R23 says. -/
structure State where
  /-- CMD (R26): the last value written, illegal words included. -/
  cmd : Word
  /-- STATUS (R27). -/
  status : Status
  /-- DIN (R24). -/
  din : Word
  /-- DOUT (R25). -/
  dout : Word
  /-- Whether the reset input is asserted (R190). -/
  resetAsserted : Bool
  /-- CODEC_BASE (R41, D4): the platform's parameter; no step changes it (log 1). -/
  codecBase : Nat
  /-- The model's own: what the host is going to do, oldest first (R14; log 3). -/
  pending : List HostEvent
  /-- The model's own: what the latest access returned, a value for a read and none for a write (R11; log 8). -/
  returned : Option Word
  deriving DecidableEq, Repr

/-- The machine right after reset: every register as R39 says, the reset input released, nothing issued by the host yet.
`codecBase` is DESIGN CHOICE 0 (log 1), `resetAsserted` false (log 7), `pending` empty (log 3), `returned` none (log 8). -/
def State.reset : State :=
  { cmd := 0x0000000000000000
    status := Status.zero
    din := 0x0000000000000000
    dout := 0x0000000000000000
    resetAsserted := false
    codecBase := 0
    pending := []
    returned := none }

end Sys2Proof.Machine
end

