-- ==== Sys2Proof/Machine/Flags.lean ====
section
/-! DEFINITION. The STATUS register: the word the host reads (10_state.md R27, R34), the result fields every result command
writes (R28 to R31), and what an illegal command records (R32, R33). -/

namespace Sys2Proof.Machine

/-- A 1-bit field. -/
def flagBit (b : Bool) : BitVec 1 := if b then 1 else 0

/-- STATUS as the host reads it (R27): every reserved bit reads 0 (R34). -/
def Status.word (t : Status) : Word :=
  0#40 ++ t.ecode ++ 0#3 ++ flagBit t.err ++ 0#6 ++ flagBit t.last ++ flagBit t.hit ++ t.tlen ++ t.len

/-- The four result fields written, ERR and ECODE unchanged: what ENC, DEC, LUT and RLUT do to STATUS (R28 to R31, R80, R81,
R106, R127). -/
def Status.withResult (t : Status) (len tlen : Nat) (hit last : Bool) : Status :=
  { t with len := BitVec.ofNat 4 len, tlen := BitVec.ofNat 4 tlen, hit := hit, last := last }

/-- What an illegal command does to STATUS (60_exceptions.md R172): the first cause since the last clear is recorded, a later
one changes nothing (R33, R174). -/
def Status.withIllegal (t : Status) (c : IllegalCause) : Status :=
  if t.err then t else { t with err := true, ecode := c.code }

end Sys2Proof.Machine
end

