-- ==== Sys2Proof/Machine/Operands.lean ====
section
/-! DEFINITION. Operand assembly: lanes of a register (20_memory.md R45), words made of lanes, and the two lookups of the
alphabet ROM (40_alphabet.md R82, R83). -/

namespace Sys2Proof.Machine

/-- `R.lane[k] = R[8k+7:8k]`, for k in 0..7 (R45). -/
def lane (w : Word) (k : Nat) : Byte := w.extractLsb' (8 * k) 8

/-- The word whose lane `k` is `f k`, for k in 0..7 (R45: lane 0 is the least significant). -/
def ofLanes (f : Nat → Byte) : Word :=
  f 7 ++ f 6 ++ f 5 ++ f 4 ++ f 3 ++ f 2 ++ f 1 ++ f 0

/-- The word a host loads a byte sequence with: element `k` in lane `k`, zero in the lanes past its end (R73, R158). -/
def laneWord (bs : List Byte) : Word := ofLanes fun k => bs.getD k 0x00

/-- The eight lanes of a word in stream order (R45). -/
def lanes (w : Word) : List Byte :=
  [lane w 0, lane w 1, lane w 2, lane w 3, lane w 4, lane w 5, lane w 6, lane w 7]

/-- `zext_64` of a byte: lane 0 is the byte, lanes 1 to 7 are 0 (00_scope.md R9). -/
def byteWord (b : Byte) : Word := b.setWidth 64

/-- `zext_64` of a 6-bit index (R81). -/
def indexWord (i : Index) : Word := i.setWidth 64

/-- `ROM[i]` (10_state.md R21). Only indices 0 to 35 are ever looked up (R63, R83); the 0x00 past the end is never read. -/
def romEntry (i : Nat) : Byte := Config.rom.getD i 0x00

/-- The index of the first entry equal to `c`, counting from `i` (the search loop of R82). -/
def searchFrom (c : Byte) : List Byte → Nat → Option Nat
  | [], _ => none
  | e :: rest, i => if e = c then some i else searchFrom c rest (i + 1)

/-- R82, the reverse lookup: `some idx` is the pair (1, idx), none is the pair (0, 0). -/
def rev (c : Byte) : Option Index := (searchFrom c Config.rom 0).map (BitVec.ofNat 6)

/-- Member: a character that is one of the 36 entries (R13). -/
def isMember (c : Byte) : Bool := (rev c).isSome

/-- The `idx` of R82's pair: 0 on a miss. -/
def revIndex (c : Byte) : Index := (rev c).getD 0

/-- R83, the forward lookup of a 5-bit symbol. -/
def fwd (s : Symbol) : Byte := romEntry s.toNat

end Sys2Proof.Machine
end

