-- ==== Sys2Proof/Machine/Ops.lean ====
section
/-! DEFINITION. The operations the commands and the port share: writing a result, TAKING THE EXCEPTION IllegalCommand and the
return from it, reading a register, reset, and the decoding of an address (20_memory.md R42). -/

namespace Sys2Proof.Machine

/-- Write a result: DOUT and the four result fields of STATUS. Every command with a result ends in it (10_state.md R25, R28 to
R31); CMD, DIN, ERR and ECODE stay. -/
def writeResult (dout : Word) (len tlen : Nat) (hit last : Bool) (s : State) : State :=
  { s with dout := dout, status := s.status.withResult len tlen hit last }

/-- TAKING THE EXCEPTION: `raise IllegalCommand(e)` (60_exceptions.md R172). No vector and no saved pc exist; the offending
word is already in CMD; only ERR and ECODE change, and only while ERR = 0. The block goes on. -/
def takeIllegal (c : IllegalCause) (s : State) : State :=
  { s with status := s.status.withIllegal c }

/-- THE RETURN FROM IT: clearing the error state, which also clears DOUT and the result fields (R175, R141). -/
def clearState (s : State) : State :=
  { s with dout := 0x0000000000000000, status := Status.zero }

/-- Every register at its reset value (R39, R190); the host's side and the reset input are no registers and stay. -/
def resetRegisters (s : State) : State :=
  { s with cmd := 0x0000000000000000, status := Status.zero, din := 0x0000000000000000, dout := 0x0000000000000000 }

/-- What `HostRead` of a register returns (20_memory.md R44). -/
def readReg (r : Reg) (s : State) : Word :=
  match r with
  | .cmd => s.cmd
  | .status => s.status.word
  | .din => s.din
  | .dout => s.dout

/-- `a - CODEC_BASE` for an address inside the window of 0x20 bytes, none outside it (R41, R42). Addresses are natural numbers,
so a window does not wrap (log 2). -/
def windowOffset (base a : Nat) : Option (BitVec 5) :=
  if base ≤ a ∧ a < base + Config.windowSize then some (BitVec.ofNat 5 (a - base)) else none

/-- The register that bits [4:3] of the offset select; bits [2:0] are ignored (R42). -/
def selectReg (offset : BitVec 5) : Reg :=
  match (offset.extractLsb' 3 2).toNat with
  | 0 => .cmd
  | 1 => .status
  | 2 => .din
  | _ => .dout

/-- The window offset of a register (R41). -/
def Reg.offset : Reg → Nat
  | .cmd => 0x00
  | .status => 0x08
  | .din => 0x10
  | .dout => 0x18

/-- The host's read of a register: a 64-bit access at CODEC_BASE plus its offset (R11, R41). -/
def readAccess (base : Nat) (r : Reg) : Access :=
  { address := base + r.offset, bits := Config.accessBits, write := none }

/-- The host's write of a register (R11, R41). -/
def writeAccess (base : Nat) (r : Reg) (v : Word) : Access :=
  { address := base + r.offset, bits := Config.accessBits, write := some v }

end Sys2Proof.Machine
end

