-- ==== Sys2Proof/Machine/Alphabet.lean ====
section
/-! DEFINITION. The lookup commands LUT and RLUT (40_alphabet.md). -/

namespace Sys2Proof.Machine

/-- LUT (R80): `DOUT <- zext_64(ROM[i])`, LEN 1, TLEN 0, HIT 1, LAST 0. An index of 36 or more raises IllegalCommand(5) here
as in the decoder (log 10). -/
def execLut (i : Byte) (s : State) : Host.Outcome State Fault Refusal :=
  if i.toNat < Config.alphabetSize then
    .next (writeResult (byteWord (romEntry i.toNat)) 1 0 true false s)
  else
    .next (takeIllegal .badIndex s)

/-- RLUT (R81): DOUT is the index of `c`, 0 on a miss; HIT and LEN tell the hit. Every code is legal and a miss is no
exception. -/
def execRlut (c : Byte) (s : State) : Host.Outcome State Fault Refusal :=
  .next (writeResult (indexWord (revIndex c)) (if isMember c then 1 else 0) 0 (isMember c) false s)

end Sys2Proof.Machine
end

