-- ==== Sys2Proof/Machine/Control.lean ====
section
/-! DEFINITION. The control commands NOP and CLR (43_control.md). -/

namespace Sys2Proof.Machine

/-- NOP (R140): no effect; CMD already holds the word. -/
def execNop (s : State) : Host.Outcome State Fault Refusal := .next s

/-- CLR (R141): DOUT and every field of STATUS to 0; DIN stays. -/
def execClr (s : State) : Host.Outcome State Fault Refusal := .next (clearState s)

end Sys2Proof.Machine
end

