-- ==== Sys2Proof/Machine/Decoder.lean ====
section
/-! DEFINITION. The decoder: token length, bit layout and byte count of 42_decoder.md, and the command DEC. -/

namespace Sys2Proof.Machine

/-- The number of leading members of a character sequence. -/
def leadingMembers : List Byte → Nat
  | [] => 0
  | c :: rest => if isMember c then leadingMembers rest + 1 else 0

/-- L, the token length: the leading member lanes of DIN, at most 8 (R121). -/
def tokenLength (din : Word) : Nat := leadingMembers (lanes din)

/-- `s[k]` of R122: the low 5 bits of the index for `k < L`, else 0. Indices 32 to 35 act as symbols 0 to 3 (R129). -/
def tokenSymbol (din : Word) (k : Nat) : Symbol :=
  if k < tokenLength din then (revIndex (lane din k)).setWidth 5 else 0

/-- The token value T, `s[0]` most significant (R123). -/
def tokenValue (din : Word) : Group :=
  tokenSymbol din 0 ++ tokenSymbol din 1 ++ tokenSymbol din 2 ++ tokenSymbol din 3 ++
  tokenSymbol din 4 ++ tokenSymbol din 5 ++ tokenSymbol din 6 ++ tokenSymbol din 7

/-- Byte `j` of a token value: `T[39-8j : 32-8j]`, for j in 0..4 (R123). -/
def byteAt (t : Group) (j : Nat) : Byte := t.extractLsb' (32 - 8 * j) 8

/-- NB(L), the byte count (R125). A token length is 0 to 8; the last arm is `L = 8`. -/
def byteCount (l : Nat) : Nat :=
  match l with
  | 0 => 0
  | 1 => 0
  | 2 => 1
  | 3 => 1
  | 4 => 2
  | 5 => 3
  | 6 => 3
  | 7 => 4
  | _ => 5

/-- DOUT after DEC: lane `j` is byte `j` for `j < NB(L)`, and 0x00 above it (R126). -/
def decodeToken (din : Word) : Word :=
  ofLanes fun j => if j < byteCount (tokenLength din) then byteAt (tokenValue din) j else Config.terminator

/-- DEC (R120): LEN = NB(L), TLEN = L, HIT 0, LAST exactly when `L < 8` (R127). It raises nothing for any data (R128). -/
def execDec (s : State) : Host.Outcome State Fault Refusal :=
  .next (writeResult (decodeToken s.din) (byteCount (tokenLength s.din)) (tokenLength s.din) false
    (decide (tokenLength s.din < Config.tokenChars)) s)

end Sys2Proof.Machine
end

