-- ==== Sys2Proof/Machine/Encoder.lean ====
section
/-! DEFINITION. The encoder: the bit layout and the tail policy of 41_encoder.md, and the command ENC. -/

namespace Sys2Proof.Machine

/-- `b[j]` of R101: lane `j` of DIN for `j < r`, 0x00 for an absent byte. -/
def groupByte (r : Nat) (din : Word) (j : Nat) : Byte := if j < r then lane din j else 0x00

/-- The group value V, `b[0]` most significant (R101). -/
def groupValue (r : Nat) (din : Word) : Group :=
  groupByte r din 0 ++ groupByte r din 1 ++ groupByte r din 2 ++ groupByte r din 3 ++ groupByte r din 4

/-- `s[k] = V[39-5k : 35-5k]`, for k in 0..7 (R102; 42_decoder.md R123 reads the token value the same way). -/
def symbolAt (v : Group) (k : Nat) : Symbol := v.extractLsb' (35 - 5 * k) 5

/-- W(r), the token width (R104). A legal ENC has `r` of 0 to 5; the last arm is `r = 5`. -/
def tokenWidth (r : Nat) : Nat :=
  match r with
  | 0 => 0
  | 1 => 2
  | 2 => 4
  | 3 => 5
  | 4 => 7
  | _ => 8

/-- DOUT after ENC: lane `k` is `fwd(s[k])` for `k < W(r)` and the terminator above it (R105). -/
def encodeGroup (r : Nat) (din : Word) : Word :=
  ofLanes fun k => if k < tokenWidth r then fwd (symbolAt (groupValue r din) k) else Config.terminator

/-- ENC (R100): LEN = W(r), TLEN 0, HIT 0, LAST exactly when `r < 5` (R106). A count of 6 or 7 raises IllegalCommand(4) here
as in the decoder (log 10). -/
def execEnc (n : BitVec 3) (s : State) : Host.Outcome State Fault Refusal :=
  if n.toNat ≤ Config.groupBytes then
    .next (writeResult (encodeGroup n.toNat s.din) (tokenWidth n.toNat) 0 false
      (decide (n.toNat < Config.groupBytes)) s)
  else
    .next (takeIllegal .badCount s)

end Sys2Proof.Machine
end

