-- ==== Sys2Proof/Machine/Dispatch.lean ====
section
/-! DEFINITION. The meaning of a command, CMD already holding its word (30_encoding.md R68): one arm per constructor. -/

namespace Sys2Proof.Machine

def exec (i : Instr) (s : State) : Host.Outcome State Fault Refusal :=
  match i with
  | .nop => Sys2Proof.Machine.execNop s
  | .enc n => Sys2Proof.Machine.execEnc n s
  | .dec => Sys2Proof.Machine.execDec s
  | .lut idx => Sys2Proof.Machine.execLut idx s
  | .rlut c => Sys2Proof.Machine.execRlut c s
  | .clr => Sys2Proof.Machine.execClr s

end Sys2Proof.Machine
end

