-- ==== Sys2Proof/Machine/Port.lean ====
section
/-! DEFINITION. The port of the block: what one host event does (20_memory.md R42 to R44, 30_encoding.md R68, 70_reset_and_hazards.md
R190). The step only takes the next event and calls `respond`. -/

namespace Sys2Proof.Machine

/-- `HostWrite(0x00, v)` (R68): CMD takes the word, legal or not (R26); then a legal word's command runs to its end, and an
illegal one raises IllegalCommand (R172). -/
def writeCmd (v : Word) (s : State) : Host.Outcome State Fault Refusal :=
  match decode v with
  | .ok i => exec i { s with cmd := v }
  | .error c => .next (takeIllegal c { s with cmd := v })

/-- A host write of a register (R44): only CMD and DIN take one, writes to STATUS and DOUT are ignored. -/
def writeReg (r : Reg) (v : Word) (s : State) : Host.Outcome State Fault Refusal :=
  match r with
  | .cmd => writeCmd v s
  | .status => .next s
  | .din => .next { s with din := v }
  | .dout => .next s

/-- An access that has reached a register. While the reset input is asserted it has no effect and a read returns 0 (R190). A read
returns the register and changes none (R44); a write returns nothing (log 8). -/
def accessReg (r : Reg) (write : Option Word) (s : State) : Host.Outcome State Fault Refusal :=
  match write, s.resetAsserted with
  | none, true => .next { s with returned := some 0x0000000000000000 }
  | some _, true => .next { s with returned := none }
  | none, false => .next { s with returned := some (readReg r s) }
  | some v, false => writeReg r v { s with returned := none }

/-- A host access: 64 bits wide and inside the window, or refused by name (R42, R43, V9). -/
def performAccess (a : Access) (s : State) : Host.Outcome State Fault Refusal :=
  if a.bits = Config.accessBits then
    match windowOffset s.codecBase a.address with
    | some offset => accessReg (selectReg offset) a.write s
    | none => .refused .accessOutsideWindow
  else
    .refused .accessNot64Bits

/-- What one host event does. Asserting reset and the return of power set every register to its reset value and run no
command (R190, R184). -/
def respond (e : HostEvent) (s : State) : Host.Outcome State Fault Refusal :=
  match e with
  | .access a => performAccess a s
  | .assertReset => .next { resetRegisters s with resetAsserted := true }
  | .releaseReset => .next { s with resetAsserted := false }
  | .powerRestored => .next (resetRegisters s)

end Sys2Proof.Machine
end

