-- ==== Sys2Proof/Machine/Step.lean ====
section
/-! DEFINITION. One step: the host's next event takes effect whole before the one after it (00_scope.md R12, 20_memory.md R47).
With no event the block is idle and keeps its state (60_exceptions.md R184). -/

namespace Sys2Proof.Machine

def step (s : State) : Host.Outcome State Fault Refusal :=
  match s.pending with
  | [] => .next s
  | e :: rest => respond e { s with pending := rest }

/-- The host is about to write the word `w` (of `nbits` bits, every higher bit 0) to CMD: the one way in which a command
comes to run (20_memory.md R51). The write goes before what is pending, and the reset input is released, since an access made
under reset has no effect (log 21). -/
def State.withFetchWord (s : State) (nbits w : Nat) : State :=
  { s with
    resetAsserted := false
    pending := .access (writeAccess s.codecBase .cmd (BitVec.ofNat 64 (w % 2 ^ nbits))) :: s.pending }

end Sys2Proof.Machine
end

