-- ==== Sys2Proof/Machine/Stream.lean ====
section
/-! DEFINITION. The reference functions over whole streams (45_stream.md R150 to R154). No single command computes them (R66);
the host procedures of Machine/HostProcedures.lean do, with the block's commands. -/

namespace Sys2Proof.Machine

/-- ENCtok(g): the token that ENC gives for a group of at most 5 bytes, lanes 0 to W - 1 of DOUT (45_stream.md, notation). -/
def encTok (g : List Byte) : List Byte :=
  (lanes (encodeGroup g.length (laneWord g))).take (tokenWidth g.length)

/-- DECtok(t): the bytes that DEC gives for a token in eight lanes, lanes 0 to NB(L) - 1 of DOUT. -/
def decTok (t : Word) : List Byte :=
  (lanes (decodeToken t)).take (byteCount (tokenLength t))

/-- The tokens of the first `g` groups of 5 bytes, the last group holding what is left (R150). -/
def encodeGroups : Nat → List Byte → List Byte
  | 0, _ => []
  | g + 1, d => encTok (d.take Config.groupBytes) ++ encodeGroups g (d.drop Config.groupBytes)

/-- G, the number of groups of `size` bytes (R150). -/
def groupCount (size : Nat) : Nat := (size + 4) / 5

/-- Encode(d) (R150). -/
def encodeStream (d : List Byte) : List Byte := encodeGroups (groupCount d.length) d

/-- E of R151: the characters of a tail of `e` bytes, `e` of 0 to 4. -/
def tailChars (e : Nat) : Nat :=
  match e with
  | 0 => 0
  | 1 => 2
  | 2 => 4
  | 3 => 5
  | _ => 7

/-- R151's length of the encoding of `n` bytes. -/
def encodedLength (n : Nat) : Nat := 8 * (n / 5) + tailChars (n % 5)

/-- The loop of R153, at most `k` tokens: a token of fewer than 8 members ends it. Past the end of the list the eight lanes are
0x00, as a terminator is. -/
def decodeTokens : Nat → List Byte → List Byte
  | 0, _ => []
  | k + 1, s =>
    if tokenLength (laneWord (s.take Config.tokenChars)) < Config.tokenChars then
      decTok (laneWord (s.take Config.tokenChars))
    else
      decTok (laneWord (s.take Config.tokenChars)) ++ decodeTokens k (s.drop Config.tokenChars)

/-- Decode(s) (R153). The loop ends by itself within `|s| / 8 + 1` tokens. -/
def decodeStream (s : List Byte) : List Byte := decodeTokens (s.length / 8 + 1) s

/-- R154's length of the decoding of a string whose first non-member is at `m`. -/
def decodedLength (m : Nat) : Nat := 5 * m / 8

end Sys2Proof.Machine
end

