-- ==== Sys2Proof/Machine/HostProcedures.lean ====
section
/-! DEFINITION. The host procedures HostEncode and HostDecode (45_stream.md R158, R159), which compute the stream functions with
the block's commands, and the host's buffer contract (R160 to R163). They are host software: they call the machine's step and
hold a memory of their own, which is no part of State (20_memory.md R40; log 13). -/

namespace Sys2Proof.Machine

/-- The host's memory: its mapped bytes, addresses strictly rising. An unlisted address is not mapped (log 13). -/
abbrev HostMem := List Host.Cell

/-- The canonical form. -/
abbrev HostMem.wf (m : HostMem) : Prop := List.Pairwise (fun x y : Host.Cell => x.1 < y.1) m

/-- The byte at an address, none where nothing is mapped. -/
def HostMem.read : HostMem → Nat → Option Byte
  | [], _ => none
  | (b, v) :: rest, a => if b = a then some v else HostMem.read rest a

/-- A byte stored, none where nothing is mapped. -/
def HostMem.write : HostMem → Nat → Byte → Option HostMem
  | [], _, _ => none
  | (b, w) :: rest, a, v =>
    if b = a then some ((b, v) :: rest)
    else
      match HostMem.write rest a v with
      | some rest' => some ((b, w) :: rest')
      | none => none

/-- The memory without its `n` bytes from `a` on, which are no longer mapped. -/
def HostMem.unmap (m : HostMem) (a n : Nat) : HostMem := m.filter fun c => c.1 < a || a + n ≤ c.1

/-- Why a host procedure stops. -/
inductive HostStop where
  /-- The machine refused an access. The accesses of R158 and R159 are 64 bits wide and in the window, so it does not
  happen. -/
  | refused (r : Refusal)
  /-- A byte outside the host's mapped memory: the procedure has no defined outcome (U6 `refuse`). -/
  | unmapped (address : Nat)
  /-- More tokens or characters than memory has bytes; it does not happen (log 16). -/
  | bound
  deriving DecidableEq, Repr

/-- `MemRead(a, 1)` (R11). -/
def memRead (m : HostMem) (a : Nat) : Except HostStop Byte :=
  match m.read a with
  | some v => .ok v
  | none => .error (.unmapped a)

/-- `MemWrite(a, 1, v)` (R11). -/
def memWrite (m : HostMem) (a : Nat) (v : Byte) : Except HostStop HostMem :=
  match m.write a v with
  | some m' => .ok m'
  | none => .error (.unmapped a)

/-- `n` bytes from `a` on, in order. -/
def readBytes (m : HostMem) : Nat → Nat → Except HostStop (List Byte)
  | _, 0 => .ok []
  | a, n + 1 => do
    let b ← memRead m a
    let bs ← readBytes m (a + 1) n
    .ok (b :: bs)

/-- A byte sequence stored from `a` on, in order. -/
def writeBytes : HostMem → Nat → List Byte → Except HostStop HostMem
  | m, _, [] => .ok m
  | m, a, b :: bs => do
    let m' ← memWrite m a b
    writeBytes m' (a + 1) bs

/-- The characters of a token of at most `n`, read up to the terminator and not past it (R159's inner loop). -/
def readToken (m : HostMem) : Nat → Nat → Except HostStop (List Byte)
  | _, 0 => .ok []
  | a, n + 1 => do
    let c ← memRead m a
    if c = Config.terminator then .ok [c]
    else
      let cs ← readToken m (a + 1) n
      .ok (c :: cs)

/-- `strlen`, over at most `n` characters. -/
def strLength (m : HostMem) : Nat → Nat → Except HostStop Nat
  | _, 0 => .error .bound
  | a, n + 1 => do
    let c ← memRead m a
    if c = Config.terminator then .ok 0
    else
      let k ← strLength m (a + 1) n
      .ok (k + 1)

/-- The host issues one access, ahead of whatever else is pending, and the machine takes one step (R12; log 15). -/
def hostAccess (a : Access) (s : State) : Except HostStop State :=
  match step { s with pending := .access a :: s.pending } with
  | .next t => .ok t
  | .fault f => nomatch f
  | .refused r => .error (.refused r)

/-- `HostWrite(offset, v)` (R11). -/
def hostWrite (r : Reg) (v : Word) (s : State) : Except HostStop State :=
  hostAccess (writeAccess s.codecBase r v) s

/-- `HostRead(offset)` (R11): the state after it and the word it returned. -/
def hostRead (r : Reg) (s : State) : Except HostStop (State × Word) := do
  let t ← hostAccess (readAccess s.codecBase r) s
  .ok (t, t.returned.getD 0)

/-- A host procedure under way: the host's memory, the block, and how many commands it has issued (R164). -/
structure HostRun where
  mem : HostMem
  block : State
  commands : Nat
  deriving DecidableEq, Repr

/-- The loop of R158 over at most `g` groups, from byte `p` of the data and character `o` of the output. -/
def encodeLoop (data size out : Nat) : Nat → Nat → Nat → HostRun → Except HostStop (HostRun × Nat)
  | 0, _, o, h => .ok (h, o)
  | g + 1, p, o, h =>
    if p < size then do
      let r := min 5 (size - p)
      let bs ← readBytes h.mem (data + p) r
      let s₁ ← hostWrite .din (laneWord bs) h.block
      let s₂ ← hostWrite .cmd (encode (.enc (BitVec.ofNat 3 r))) s₁
      let (s₃, t) ← hostRead .dout s₂
      let (s₄, st) ← hostRead .status s₃
      let w := (st.extractLsb' 0 4).toNat
      let m ← writeBytes h.mem (out + o) ((lanes t).take w)
      encodeLoop data size out g (p + r) (o + w) { mem := m, block := s₄, commands := h.commands + 1 }
    else .ok (h, o)

/-- HostEncode(data, size, out) (R158): it answers the number of characters written before the terminator (R152). -/
def hostEncode (data size out : Nat) (h : HostRun) : Except HostStop (HostRun × Nat) := do
  let (h', o) ← encodeLoop data size out (groupCount size) 0 0 h
  let m ← memWrite h'.mem (out + o) Config.terminator
  .ok ({ h' with mem := m }, o)

/-- The loop of R159 over at most `k` tokens, from character `p` of the string and byte `o` of the output. -/
def decodeLoop (str out : Nat) : Nat → Nat → Nat → HostRun → Except HostStop (HostRun × Nat)
  | 0, _, _, _ => .error .bound
  | k + 1, p, o, h => do
    let cs ← readToken h.mem (str + p) 8
    let s₁ ← hostWrite .din (laneWord cs) h.block
    let s₂ ← hostWrite .cmd (encode .dec) s₁
    let (s₃, st) ← hostRead .status s₂
    let (s₄, d) ← hostRead .dout s₃
    let n := (st.extractLsb' 0 4).toNat
    let m ← writeBytes h.mem (out + o) ((lanes d).take n)
    let h' : HostRun := { mem := m, block := s₄, commands := h.commands + 1 }
    if st.getLsbD 9 then .ok (h', o + n)
    else decodeLoop str out k (p + 8) (o + n) h'

/-- HostDecode(str, out) (R159): it answers the total decoded byte count (R154). -/
def hostDecode (str out : Nat) (h : HostRun) : Except HostStop (HostRun × Nat) := do
  let (h', o) ← decodeLoop str out (h.mem.length + 1) 0 0 h
  let m ← memWrite h'.mem (out + o) Config.terminator
  .ok ({ h' with mem := m }, o)

/-- The output capacity encoding needs, in bytes (R160). -/
def encodeCapacity (size : Nat) : Nat := size * 8 / 5 + 5

/-- The output capacity decoding needs, in bytes (R161, D30: one more than the source's formula, C7). -/
def decodeCapacity (len : Nat) : Nat := len * 5 / 8 + 1

/-- The caller's output buffer: where it is, none before the first call or after a failure, and its capacity (R162, R163). -/
structure HostBuffer where
  address : Option Nat
  capacity : Nat
  deriving DecidableEq, Repr

/-- What encode and decode answer the caller: a length, or the failure signal FAIL_SENTINEL, told apart from every length
(U4; log 14). -/
inductive HostResult where
  | length (n : Nat)
  | failed
  deriving DecidableEq, Repr

/-- The answer as one number, with FAIL_SENTINEL a parameter (U4). -/
def HostResult.signal (failSentinel : Int) : HostResult → Int
  | .length n => n
  | .failed => failSentinel

/-- Growth: "allocate if current capacity insufficient, else reuse in place" (R163). `alloc` is the allocator's answer, none
when it fails (log 14). -/
def reserve (need : Nat) (alloc : Option Nat) (b : HostBuffer) : Option (Nat × HostBuffer) :=
  match b.address with
  | some a =>
    if need ≤ b.capacity then some (a, b)
    else
      match alloc with
      | some a' => some (a', { address := some a', capacity := need })
      | none => none
  | none =>
    match alloc with
    | some a' => some (a', { address := some a', capacity := need })
    | none => none

/-- The buffer after an allocation failure: released, capacity zero (R162). -/
def HostBuffer.released : HostBuffer := { address := none, capacity := 0 }

/-- The host's memory once the buffer is released: its bytes are no longer mapped, so nothing can be read from them (U3, log
14). -/
def HostBuffer.release (b : HostBuffer) (m : HostMem) : HostMem :=
  match b.address with
  | some a => m.unmap a b.capacity
  | none => m

/-- The source's `encode` with its buffer policy (R158, R160, R162, R163): it grows before it issues its first command. -/
def encodeInto (data size : Nat) (alloc : Option Nat) (b : HostBuffer) (h : HostRun) :
    Except HostStop (HostRun × HostBuffer × HostResult) :=
  match reserve (encodeCapacity size) alloc b with
  | none => .ok ({ h with mem := b.release h.mem }, HostBuffer.released, .failed)
  | some (a, b') => do
    let (h', n) ← hostEncode data size a h
    .ok (h', b', .length n)

/-- The source's `decode` with its buffer policy (R159, R161, R162, R163). -/
def decodeInto (str : Nat) (alloc : Option Nat) (b : HostBuffer) (h : HostRun) :
    Except HostStop (HostRun × HostBuffer × HostResult) := do
  let len ← strLength h.mem str (h.mem.length + 1)
  match reserve (decodeCapacity len) alloc b with
  | none => .ok ({ h with mem := b.release h.mem }, HostBuffer.released, .failed)
  | some (a, b') => do
    let (h', n) ← hostDecode str a h
    .ok (h', b', .length n)

end Sys2Proof.Machine
end

