-- ==== Sys2Proof/Machine/HostProgram.lean ====
section
/-! DEFINITION. Host programs: the statements of 30_encoding.md R72 and the pseudo-instructions of R73, as abstract syntax (log
17), and the accesses each stands for (R74). -/

namespace Sys2Proof.Machine

/-- A statement of a host program (R72, R73). Numbers are as the program writes them, so an operand can be out of range. -/
inductive HostStmt where
  | wrCmd (v : Word)
  | wrDin (v : Word)
  | rdCmd
  | rdStatus
  | rdDin
  | rdDout
  | nop
  | enc (n : Nat)
  | dec
  | lut (i : Nat)
  | rlut (c : Byte)
  | clr
  /-- `encg b0, ..., b(r-1)`: load a group and encode it. -/
  | encg (bs : List Byte)
  /-- `dect "s"`: load a token and decode it. -/
  | dect (cs : List Byte)
  /-- `ldin "s"`: the load of `dect` alone. -/
  | ldin (cs : List Byte)
  deriving DecidableEq, Repr

/-- `(N << 4) | 0x1` (R72). -/
def encWord (n : Nat) : Word := (BitVec.ofNat 64 n <<< 4) ||| 0x1

/-- `(I << 8) | 0x3` (R72). -/
def lutWord (i : Nat) : Word := (BitVec.ofNat 64 i <<< 8) ||| 0x3

/-- `(C << 8) | 0x4` (R72). -/
def rlutWord (c : Byte) : Word := (c.setWidth 64 <<< 8) ||| 0x4

/-- The accesses a statement stands for, none where the syntax refuses it: an operand out of range, or a group or string that
is too long (R72, R73). -/
def HostStmt.accesses (base : Nat) : HostStmt → Option (List Access)
  | .wrCmd v => some [writeAccess base .cmd v]
  | .wrDin v => some [writeAccess base .din v]
  | .rdCmd => some [readAccess base .cmd]
  | .rdStatus => some [readAccess base .status]
  | .rdDin => some [readAccess base .din]
  | .rdDout => some [readAccess base .dout]
  | .nop => some [writeAccess base .cmd 0x0]
  | .enc n => if n ≤ 5 then some [writeAccess base .cmd (encWord n)] else none
  | .dec => some [writeAccess base .cmd 0x2]
  | .lut i => if i ≤ 35 then some [writeAccess base .cmd (lutWord i)] else none
  | .rlut c => some [writeAccess base .cmd (rlutWord c)]
  | .clr => some [writeAccess base .cmd 0x5]
  | .encg bs =>
    if bs.length ≤ 5 then
      some [writeAccess base .din (laneWord bs), writeAccess base .cmd (encWord bs.length)]
    else none
  | .dect cs =>
    if cs.length ≤ 8 then some [writeAccess base .din (laneWord cs), writeAccess base .cmd 0x2] else none
  | .ldin cs => if cs.length ≤ 8 then some [writeAccess base .din (laneWord cs)] else none

/-- The accesses of a whole program, one line after the other. -/
def programAccesses (base : Nat) : List HostStmt → Option (List Access)
  | [] => some []
  | p :: rest =>
    match p.accesses base, programAccesses base rest with
    | some as, some bs => some (as ++ bs)
    | _, _ => none

/-- The state in which the host is about to issue these accesses, before what it had pending (log 3). -/
def State.withAccesses (s : State) (as : List Access) : State :=
  { s with pending := as.map .access ++ s.pending }

end Sys2Proof.Machine
end

