-- ==== Sys2Proof/Safety.lean ====
section
/-! DEFINITION. What counts as a safe state and a safe run: the invariant of the register file, and the accesses that the
port carries. -/

namespace Sys2Proof.Machine

/-- STATUS is coherent. ECODE is 0 exactly while ERR is 0, and otherwise one of the codes 1 to 5 (10_state.md R33,
60_exceptions.md R170); LEN and TLEN are at most 8 (R28, R29); HIT belongs to a lookup, with LEN 1, TLEN 0 and LAST 0 (R80,
R81); a non-zero TLEN belongs to a DEC, with LEN and LAST as R127 says. -/
abbrev Status.coherent (t : Status) : Prop :=
  (t.err = false → t.ecode = 0) ∧
  (t.err = true → 1 ≤ t.ecode.toNat ∧ t.ecode.toNat ≤ 5) ∧
  t.len.toNat ≤ 8 ∧ t.tlen.toNat ≤ 8 ∧
  (t.hit = true → t.len = 1 ∧ t.tlen = 0 ∧ t.last = false) ∧
  (t.tlen ≠ 0 → t.hit = false ∧ t.len.toNat = byteCount t.tlen.toNat ∧ t.last = decide (t.tlen.toNat < 8))

/-- Every lane of DOUT at or past LEN reads 0 (10_state.md R34). -/
abbrev State.doutZeroPastLen (s : State) : Prop :=
  ∀ k < 8, s.status.len.toNat ≤ k → lane s.dout k = 0x00

/-- While the reset input is asserted, every register holds its reset value (R190). -/
abbrev State.resetHolds (s : State) : Prop :=
  s.resetAsserted = true →
    s.cmd = 0 ∧ s.status = Status.zero ∧ s.din = 0 ∧ s.dout = 0

/-- The invariant of the block. -/
abbrev State.Inv (s : State) : Prop :=
  s.status.coherent ∧ s.doutZeroPastLen ∧ s.resetHolds

/-- An event the block answers: any but an access that is not 64 bits wide or lies outside the window (V9). -/
abbrev HostEvent.carried (base : Nat) : HostEvent → Prop
  | .access a => a.bits = 64 ∧ base ≤ a.address ∧ a.address < base + 0x20
  | .assertReset => True
  | .releaseReset => True
  | .powerRestored => True

/-- The host is about to access register `r`, writing `w` or reading it (`w` none), with `rest` to follow, and the reset input is
not asserted: a 64-bit access at ANY byte address of the register's 8-byte slot (20_memory.md R41 to R43). -/
abbrev State.AboutTo (s : State) (r : Reg) (w : Option Word) (rest : List HostEvent) : Prop :=
  s.resetAsserted = false ∧
  ∃ address, s.codecBase + r.offset ≤ address ∧ address < s.codecBase + r.offset + 8 ∧
    s.pending = .access { address := address, bits := 64, write := w } :: rest

/-- The state in which a command written to CMD runs: the word is in CMD, the access is taken, nothing is returned (R68). -/
abbrev State.withCommand (s : State) (v : Word) (rest : List HostEvent) : State :=
  { s with cmd := v, pending := rest, returned := none }

/-- Memory holds the byte sequence `bs` from address `a` on. -/
abbrev HostMem.holds (m : HostMem) (a : Nat) (bs : List Byte) : Prop :=
  ∀ k < bs.length, m.read (a + k) = bs[k]?

/-- Room for `n` bytes from `a` on (R160, R161). -/
abbrev HostMem.room (m : HostMem) (a n : Nat) : Prop := ∀ k < n, (m.read (a + k)).isSome = true

/-- R103's table: symbol `k` of a group from its bytes by shifts and masks. -/
def shiftMaskSymbol (b : Nat → Byte) (k : Nat) : Byte :=
  match k with
  | 0 => (b 0 &&& 0xF8) >>> 3
  | 1 => ((b 0 &&& 0x07) <<< 2) ||| ((b 1 &&& 0xC0) >>> 6)
  | 2 => (b 1 &&& 0x3E) >>> 1
  | 3 => ((b 1 &&& 0x01) <<< 4) ||| ((b 2 &&& 0xF0) >>> 4)
  | 4 => ((b 2 &&& 0x0F) <<< 1) ||| ((b 3 &&& 0x80) >>> 7)
  | 5 => (b 3 &&& 0x7C) >>> 2
  | 6 => ((b 3 &&& 0x03) <<< 3) ||| ((b 4 &&& 0xE0) >>> 5)
  | _ => b 4 &&& 0x1F

/-- 42_decoder.md R124's table: byte `j` of a token from its symbols (each in the low 5 bits of a byte) by shifts and masks. -/
def shiftMaskByte (x : Nat → Byte) (j : Nat) : Byte :=
  match j with
  | 0 => (x 0 <<< 3) ||| (x 1 >>> 2)
  | 1 => ((x 1 &&& 0x03) <<< 6) ||| (x 2 <<< 1) ||| (x 3 >>> 4)
  | 2 => ((x 3 &&& 0x0F) <<< 4) ||| (x 4 >>> 1)
  | 3 => ((x 4 &&& 0x01) <<< 7) ||| (x 5 <<< 2) ||| (x 6 >>> 3)
  | _ => ((x 6 &&& 0x07) <<< 5) ||| x 7

/-- The index of a character by its code: letters from 0, digits from 26 (10_state.md R21). -/
def indexByCode (c : Byte) : Option Nat :=
  if 0x61 ≤ c.toNat ∧ c.toNat ≤ 0x7A then some (c.toNat - 0x61)
  else if 0x30 ≤ c.toNat ∧ c.toNat ≤ 0x39 then some (c.toNat - 0x30 + 26)
  else none

/-- The character `'a'` to `'d'` that decodes like `'6'` to `'9'`; any other character itself (42_decoder.md R129). -/
def aliasOf (c : Byte) : Byte :=
  if 0x36 ≤ c.toNat ∧ c.toNat ≤ 0x39 then c + 0x2B else c

/-- A safe step: it neither faults nor is refused. -/
def Goes (s : State) : Prop := ∃ t, step s = .next t

end Sys2Proof.Machine
end

