-- ==== Sys2Proof/Certificates/Slice0/Obligations.lean ====
section
/-! DEFINITION. The statements for the provers. OBLIGATIONS.json says of each which rules of spec/ it rests on. Statements about
the machine hold for every base address (`codecBase`), whatever else the host has pending. `pending` and `returned` are the
model's own fields and stand for the host (logs 3 and 8, DESIGN CHOICE): a statement of basis 'stated' leaves free what a step
leaves in them, and where a derived one gives their values, those values are the model's choice. -/

open Sys2Proof Sys2Proof.Machine

/-! ## Encoding -/

/-- Words of R72 and of R170's causes decode to what they stand for (30_encoding.md R60, R65, R67; 60_exceptions.md R170,
R171). -/
def Obligations.SampleWordsDecode : Prop :=
  decode 0x0 = .ok .nop ∧ decode 0x01 = .ok (.enc 0) ∧ decode 0x51 = .ok (.enc 5) ∧ decode 0x2 = .ok .dec ∧
  decode 0x2303 = .ok (.lut 35) ∧ decode 0x4104 = .ok (.rlut 0x41) ∧ decode 0x5 = .ok .clr ∧
  decode 0xFFFFFFFFFFFFFFFF = .error .reservedOp ∧ decode 0x10061 = .error .reservedBits ∧
  decode 0x2473 = .error .unusedField ∧ decode 0x61 = .error .badCount ∧ decode 0x2403 = .error .badIndex

/-- No bit of a command is dropped: decoding an encoded well-formed command gives it back (R60 to R67). -/
def Obligations.DecodeOfEncodeIsTheCommand : Prop :=
  ∀ i : Instr, i.wf = true → decode (encode i) = .ok i

/-- Each legal word is the encoding of the one command it decodes to, which is well formed (R65, R67, R70). -/
def Obligations.EncodeOfDecodeIsTheWord : Prop :=
  ∀ (v : Word) (i : Instr), decode v = .ok i → encode i = v ∧ i.wf = true

/-- R65: a word selects a command when it matches the command's row of the map and its fields hold legal values; a reserved
OP is illegal with code 1. -/
def Obligations.OpcodeMapSelectsTheCommand : Prop :=
  opcodeMap.map (fun r => (r.mnemonic, r.pattern, r.mask)) =
    [("NOP", 0x0000000000000000, 0xFFFFFFFFFFFFFFFF), ("ENC", 0x0000000000000001, 0xFFFFFFFFFFFFFF8F),
     ("DEC", 0x0000000000000002, 0xFFFFFFFFFFFFFFFF), ("LUT", 0x0000000000000003, 0xFFFFFFFFFFFF00FF),
     ("RLUT", 0x0000000000000004, 0xFFFFFFFFFFFF00FF), ("CLR", 0x0000000000000005, 0xFFFFFFFFFFFFFFFF)] ∧
  (∀ i : Instr, i.row ∈ opcodeMap) ∧
  (∀ (v : Word) (i : Instr), decode v = .ok i ↔
    v &&& i.row.mask = i.row.pattern ∧
    match i with
    | .nop => True
    | .enc n => v.extractLsb' 4 3 = n ∧ n.toNat ≤ 5
    | .dec => True
    | .lut k => v.extractLsb' 8 8 = k ∧ k.toNat ≤ 35
    | .rlut c => v.extractLsb' 8 8 = c
    | .clr => True) ∧
  (∀ v : Word, 0x6 ≤ (v.extractLsb' 0 4).toNat → decode v = .error .reservedOp)

/-- R67 and R172: a word written to CMD is legal and runs, or raises IllegalCommand with the code of the FIRST of the five
conditions that holds; the code is recorded only while ERR = 0, and nothing but CMD, ERR and ECODE changes. -/
def Obligations.WrittenWordRunsOrRecordsItsFirstCause : Prop :=
  ∀ (s : State) (v : Word) (rest : List HostEvent), s.AboutTo .cmd (some v) rest →
    let op := v.toNat % 16
    let n := v.toNat / 16 % 8
    let arg := v.toNat / 256 % 256
    let c1 : Prop := 6 ≤ op
    let c2 : Prop := v.toNat / 65536 ≠ 0 ∨ v.toNat / 128 % 2 ≠ 0
    let c3 : Prop := (n ≠ 0 ∧ op ≠ 1) ∨ (arg ≠ 0 ∧ op ≠ 3 ∧ op ≠ 4)
    let c4 : Prop := op = 1 ∧ 6 ≤ n
    let c5 : Prop := op = 3 ∧ 36 ≤ arg
    let raised (e : BitVec 4) : Prop :=
      ∃ p x, step s = .next { s with
        cmd := v, pending := p, returned := x,
        status := if s.status.err then s.status else { s.status with err := true, ecode := e } }
    (c1 → raised 1) ∧
    (¬c1 ∧ c2 → raised 2) ∧
    (¬c1 ∧ ¬c2 ∧ c3 → raised 3) ∧
    (¬c1 ∧ ¬c2 ∧ ¬c3 ∧ c4 → raised 4) ∧
    (¬c1 ∧ ¬c2 ∧ ¬c3 ∧ ¬c4 ∧ c5 → raised 5) ∧
    (¬c1 ∧ ¬c2 ∧ ¬c3 ∧ ¬c4 ∧ ¬c5 →
      ∃ i p x, decode v = .ok i ∧ encode i = v ∧ step s = exec i { s with cmd := v, pending := p, returned := x })

/-! ## The port and the step -/

/-- R68: when the host writes a word to CMD, the step is the decoded command's `exec` on the state that holds the word in CMD;
where the word decodes to a cause, the step is the taking of that exception. -/
def Obligations.StepRunsTheDecodedCommand : Prop :=
  ∀ (s : State) (v : Word) (rest : List HostEvent), s.AboutTo .cmd (some v) rest →
    (∀ i, decode v = .ok i → step s = exec i (s.withCommand v rest)) ∧
    (∀ c, decode v = .error c → step s = .next (takeIllegal c (s.withCommand v rest)))

/-- R44, the four reads: each returns the whole register and changes none; STATUS is read with its fields at their places and
every reserved bit 0 (10_state.md R27). -/
def Obligations.ReadsReturnTheRegister : Prop :=
  ∀ (s : State) (r : Reg) (rest : List HostEvent), s.AboutTo r none rest →
    ∃ w : Word, step s = .next { s with pending := rest, returned := some w } ∧
      match r with
      | .cmd => w = s.cmd
      | .din => w = s.din
      | .dout => w = s.dout
      | .status =>
        w.extractLsb' 0 4 = s.status.len ∧ w.extractLsb' 4 4 = s.status.tlen ∧ w.getLsbD 8 = s.status.hit ∧
        w.getLsbD 9 = s.status.last ∧ w.extractLsb' 10 6 = 0 ∧ w.getLsbD 16 = s.status.err ∧
        w.extractLsb' 17 3 = 0 ∧ w.extractLsb' 20 4 = s.status.ecode ∧ w.extractLsb' 24 40 = 0

/-- R44, the writes that run no command: DIN takes the word; a write to STATUS or DOUT has no effect and raises no error. -/
def Obligations.WritesReachOnlyWritableRegisters : Prop :=
  ∀ (s : State) (v : Word) (rest : List HostEvent),
    (s.AboutTo .din (some v) rest → step s = .next { s with din := v, pending := rest, returned := none }) ∧
    (s.AboutTo .status (some v) rest → step s = .next { s with pending := rest, returned := none }) ∧
    (s.AboutTo .dout (some v) rest → step s = .next { s with pending := rest, returned := none })

/-- R42: of an address in the window only bits [4:3] of its offset count, so two accesses into one 8-byte slot do the same; they
select CMD, STATUS, DIN or DOUT, in this order; an access outside the window does not reach the block. That the step then answers a
refusal is the model's reading of V9's `refuse` (log 5, DEDUCED). -/
def Obligations.OffsetBitsFourAndThreeSelect : Prop :=
  ∀ (s : State) (a : Nat) (w : Option Word) (rest : List HostEvent),
    s.pending = .access { address := a, bits := 64, write := w } :: rest →
    (∀ b, s.codecBase ≤ a → a < s.codecBase + 0x20 → s.codecBase ≤ b → (b - s.codecBase) / 8 = (a - s.codecBase) / 8 →
      step { s with pending := .access { address := b, bits := 64, write := w } :: rest } = step s) ∧
    (s.codecBase ≤ a → a < s.codecBase + 0x20 →
      ∃ p, step s = accessReg
        (match (BitVec.ofNat 5 (a - s.codecBase)).extractLsb' 3 2 with
          | 0 => .cmd
          | 1 => .status
          | 2 => .din
          | 3 => .dout) w { s with pending := p }) ∧
    (a < s.codecBase ∨ s.codecBase + 0x20 ≤ a → step s = .refused .accessOutsideWindow)

/-- 20_memory.md R43 and 93_implementation_defined.md V9: the port carries 64-bit accesses only, and a narrower one is refused by
name. That a wider one is refused too, and that the width is judged before the window, at every address, is the model's choice
(log 6, DEDUCED). -/
def Obligations.OtherWidthsAreRefused : Prop :=
  ∀ (s : State) (a : Access) (rest : List HostEvent), s.pending = .access a :: rest → a.bits ≠ 64 →
    step s = .refused .accessNot64Bits

/-- Whole-machine rule: "No command and no access can stop the block" (93_implementation_defined.md; 20_memory.md R53;
60_exceptions.md R172): whatever the state and the data, every event the port carries is answered by a next state, and the
block keeps its state when there is none (R184; that this is a step is the model's, log 4, DEDUCED). That `exec` goes on for an
ill-formed ENC or LUT too, which no step reaches, is the model's choice (log 10, DEDUCED). -/
def Obligations.NothingStopsTheBlock : Prop :=
  (∀ s : State, s.pending = [] → step s = .next s) ∧
  (∀ (s : State) (e : HostEvent) (rest : List HostEvent), s.pending = e :: rest → e.carried s.codecBase → Goes s) ∧
  (∀ (i : Instr) (s : State), ∃ t, exec i s = .next t)

/-- R44: "Writing the same value twice in a row changes nothing the second time", for every value, legal or not. -/
def Obligations.SecondIdenticalWriteChangesNothing : Prop :=
  ∀ (s t u : State) (r : Reg) (v : Word) (rest rest' : List HostEvent),
    s.AboutTo r (some v) rest → step s = .next t → t.AboutTo r (some v) rest' → step t = .next u →
    u = { t with pending := rest' }

/-! ## Reset -/

/-- R39: every register is zero in the state after reset, the STATUS fields among them, and the ROM is R21's constant. -/
def Obligations.ResetStateHoldsZeros : Prop :=
  State.reset.cmd = 0x0000000000000000 ∧ State.reset.din = 0x0000000000000000 ∧ State.reset.dout = 0x0000000000000000 ∧
  State.reset.status.word = 0x0000000000000000 ∧ State.reset.status.len = 0 ∧ State.reset.status.tlen = 0 ∧
  State.reset.status.hit = false ∧ State.reset.status.last = false ∧ State.reset.status.err = false ∧
  State.reset.status.ecode = 0 ∧
  (∀ i < 36, romEntry i = BitVec.ofNat 8 (if i < 26 then 0x61 + i else 0x30 + (i - 26)))

/-- R190: asserting reset puts every register to its reset value and runs no command; an access made while it is asserted has
no effect and returns 0. -/
def Obligations.ResetInputClearsAndBlocksAccesses : Prop :=
  ∀ (s : State) (rest : List HostEvent),
    (s.pending = .assertReset :: rest →
      ∃ p x, step s = .next { s with cmd := State.reset.cmd, status := State.reset.status, din := State.reset.din,
                                     dout := State.reset.dout, resetAsserted := true, pending := p, returned := x }) ∧
    (∀ a : Access, s.pending = .access a :: rest → (HostEvent.access a).carried s.codecBase → s.resetAsserted = true →
      ∃ p x, step s = .next { s with pending := p, returned := x } ∧ (a.write = none → x = some 0))

/-- 60_exceptions.md R184: with no access in progress the block keeps its state (as a step: log 4), and after power is restored the registers hold
their reset values. That it takes one event, which leaves the reset input as it was, is the model's choice (log 9), and so is that
releasing reset is an event that changes nothing else (log 7). -/
def Obligations.IdleKeepsStateAndPowerRestoredResets : Prop :=
  (∀ s : State, s.pending = [] → step s = .next s) ∧
  (∀ (s : State) (rest : List HostEvent), s.pending = .releaseReset :: rest →
    step s = .next { s with resetAsserted := false, pending := rest }) ∧
  (∀ (s : State) (rest : List HostEvent), s.pending = .powerRestored :: rest →
    step s = .next { s with cmd := State.reset.cmd, status := State.reset.status, din := State.reset.din,
                            dout := State.reset.dout, pending := rest })

/-! ## NOP and CLR -/

/-- R140: NOP has no effect, so writing its word, 0, changes CMD alone; that word is CMD's reset value; any other word with OP 0 is
illegal, with code 2 when a reserved bit is set and code 3 otherwise. -/
def Obligations.NopHasNoEffect : Prop :=
  (∀ s : State, exec .nop s = .next s) ∧ encode .nop = 0x0000000000000000 ∧ decode 0x0000000000000000 = .ok .nop ∧
  State.reset.cmd = encode .nop ∧
  (∀ (s : State) (rest : List HostEvent), s.AboutTo .cmd (some 0x0) rest →
    ∃ p x, step s = .next { s with cmd := 0x0, pending := p, returned := x }) ∧
  (∀ v : Word, v.extractLsb' 0 4 = 0x0 → v ≠ 0 →
    decode v = .error (if v.extractLsb' 16 48 ≠ 0 ∨ v.getLsbD 7 = true then .reservedBits else .unusedField))

/-- R141: CLR sets DOUT and every field of STATUS to 0, leaves DIN, and CMD holds its word, 5; any other word with OP 5 is illegal,
and then DOUT and the result fields of STATUS stay. -/
def Obligations.ClrClearsDoutAndStatus : Prop :=
  (∀ s : State, exec .clr s = .next { s with
      dout := 0x0000000000000000,
      status := { len := 0, tlen := 0, hit := false, last := false, err := false, ecode := 0 } }) ∧
  encode .clr = 0x0000000000000005 ∧ decode 0x0000000000000005 = .ok .clr ∧
  (∀ (s : State) (rest : List HostEvent), s.AboutTo .cmd (some 0x5) rest →
    ∃ p x, step s = .next { s with
      cmd := 0x5, dout := 0x0000000000000000, pending := p, returned := x,
      status := { len := 0, tlen := 0, hit := false, last := false, err := false, ecode := 0 } }) ∧
  (∀ v : Word, v.extractLsb' 0 4 = 0x5 → v ≠ 0x5 →
    decode v = .error (if v.extractLsb' 16 48 ≠ 0 ∨ v.getLsbD 7 = true then .reservedBits else .unusedField)) ∧
  (∀ (s : State) (v : Word) (rest : List HostEvent), v.extractLsb' 0 4 = 0x5 → v ≠ 0x5 → s.AboutTo .cmd (some v) rest →
    ∃ t, step s = .next t ∧ t.dout = s.dout ∧ t.din = s.din ∧ t.status.err = true ∧
      t.status.len = s.status.len ∧ t.status.tlen = s.status.tlen ∧ t.status.hit = s.status.hit ∧
      t.status.last = s.status.last)

/-! ## LUT and RLUT -/

/-- R22: the ROM has exactly 36 entries and no duplicates, so a member character has exactly one index. -/
def Obligations.RomEntriesAreDistinct : Prop :=
  Config.rom.length = 36 ∧ Config.rom.Nodup ∧
  (∀ c : Byte, isMember c = true → ∃ k, (k < 36 ∧ romEntry k = c) ∧ ∀ j, j < 36 → romEntry j = c → j = k)

/-- R80 with R21's table: `lut i` for `i` of 0 to 35 puts the `i`-th character in lane 0 of DOUT, zeros above it, and writes LEN 1,
TLEN 0, HIT 1, LAST 0; an index of 36 or more is illegal with code 5 (that exec itself raises it there is the model's choice, log 10). -/
def Obligations.LutReturnsTheCharacter : Prop :=
  ∀ (i : Byte) (s : State),
    (i.toNat < 36 → exec (.lut i) s = .next { s with
      dout := BitVec.ofNat 64 (if i.toNat < 26 then 0x61 + i.toNat else 0x30 + (i.toNat - 26)),
      status := { s.status with len := 1, tlen := 0, hit := true, last := false } }) ∧
    (36 ≤ i.toNat → exec (.lut i) s = .next (takeIllegal .badIndex s) ∧ decode (encode (.lut i)) = .error .badIndex)

/-- R81: RLUT gives the index of the character in DOUT with HIT 1 and LEN 1, or DOUT 0, HIT 0 and LEN 0 on a miss; TLEN and LAST
are 0. The index is given by the code: letters from 0, digits from 26. -/
def Obligations.RlutReturnsTheIndex : Prop :=
  ∀ (c : Byte) (s : State), exec (.rlut c) s = .next { s with
    dout := BitVec.ofNat 64 ((indexByCode c).getD 0),
    status := { s.status with
      len := if (indexByCode c).isSome then 1 else 0, tlen := 0, hit := (indexByCode c).isSome, last := false } }

/-- R82: the reverse lookup hits with the index of the entry equal to the code, and misses, with index 0, exactly when no entry
is. -/
def Obligations.ReverseLookupFindsTheEntry : Prop :=
  (∀ (c : Byte) (k : Index), rev c = some k ↔ k.toNat < 36 ∧ romEntry k.toNat = c) ∧
  (∀ c : Byte, isMember c = false ↔ ∀ k < 36, romEntry k ≠ c) ∧
  (∀ c : Byte, isMember c = false → revIndex c = 0)

/-- R85: no upper-case letter, no code at or above 0x80, no control character and no NUL is a member. -/
def Obligations.MatchingIsExact : Prop :=
  ∀ c : Byte, (0x41 ≤ c.toNat ∧ c.toNat ≤ 0x5A) ∨ 0x80 ≤ c.toNat ∨ c.toNat < 0x20 ∨ c.toNat = 0x7F →
    rev c = none ∧ revIndex c = 0

/-! ## ENC -/

/-- R104: the token widths, and that they are the least that hold `8r` bits. -/
def Obligations.TokenWidths : Prop :=
  tokenWidth 0 = 0 ∧ tokenWidth 1 = 2 ∧ tokenWidth 2 = 4 ∧ tokenWidth 3 = 5 ∧ tokenWidth 4 = 7 ∧ tokenWidth 5 = 8 ∧
  (∀ r, 1 ≤ r → r ≤ 5 → 8 * r ≤ 5 * tokenWidth r ∧ 5 * (tokenWidth r - 1) < 8 * r)

/-- R100 by R103's shifts and masks: ENC of `n` bytes (0 to 5) runs whatever DIN holds; lane `k` of DOUT below the width is the
character of symbol `k`, above it 0; STATUS is R106's; nothing else changes. A count of 6 or 7 raises IllegalCommand(4) (in exec itself:
log 10). -/
def Obligations.EncFollowsShiftsAndMasks : Prop :=
  ∀ (n : BitVec 3) (s : State),
    (n.toNat ≤ 5 → ∃ t, exec (.enc n) s = .next t ∧
      (∀ k < 8, lane t.dout k =
        if k < tokenWidth n.toNat then
          romEntry (shiftMaskSymbol (fun j => if j < n.toNat then lane s.din j else 0x00) k).toNat
        else 0x00) ∧
      t = { s with
        dout := t.dout,
        status := { s.status with
          len := BitVec.ofNat 4 (tokenWidth n.toNat), tlen := 0, hit := false, last := decide (n.toNat < 5) } }) ∧
    (6 ≤ n.toNat → exec (.enc n) s = .next (takeIllegal .badCount s))

/-- R106: STATUS after a legal ENC, as fields and as the low 16 bits of the word. -/
def Obligations.EncStatus : Prop :=
  ∀ (n : BitVec 3) (s : State), n.toNat ≤ 5 → ∃ t, exec (.enc n) s = .next t ∧
    t.status.len.toNat = tokenWidth n.toNat ∧ t.status.tlen = 0 ∧ t.status.hit = false ∧
    (t.status.last = true ↔ n.toNat < 5) ∧ t.status.err = s.status.err ∧ t.status.ecode = s.status.ecode ∧
    t.status.word.extractLsb' 0 16 =
      match n.toNat with
      | 0 => 0x0200
      | 1 => 0x0202
      | 2 => 0x0204
      | 3 => 0x0205
      | 4 => 0x0207
      | _ => 0x0008

/-- R105: lane `k` is ROM[s[k]] below the width and the terminator above it; a full group leaves no terminator, an empty one
nothing else. -/
def Obligations.EncOutputLanes : Prop :=
  ∀ (n : BitVec 3) (s : State), n.toNat ≤ 5 → ∃ t, exec (.enc n) s = .next t ∧
    (∀ k < tokenWidth n.toNat, lane t.dout k = romEntry (symbolAt (groupValue n.toNat s.din) k).toNat ∧
      fwd (symbolAt (groupValue n.toNat s.din) k) = romEntry (symbolAt (groupValue n.toNat s.din) k).toNat) ∧
    (∀ k < 8, tokenWidth n.toNat ≤ k → lane t.dout k = 0x00) ∧
    (n.toNat = 5 → ∀ k < 8, lane t.dout k ≠ 0x00) ∧ (n.toNat = 0 → t.dout = 0)

/-- R101 and R102: the first byte of a group is the most significant, absent bytes are zero, and symbol `k` is the 5-bit window at
bit offset `5k` from the most significant end. -/
def Obligations.GroupValueIsMostSignificantFirst : Prop :=
  ∀ (r : Nat) (din : Word), r ≤ 5 →
    (groupValue r din).toNat =
      (if 0 < r then din.toNat % 256 else 0) * 2 ^ 32 +
      (if 1 < r then din.toNat / 2 ^ 8 % 256 else 0) * 2 ^ 24 +
      (if 2 < r then din.toNat / 2 ^ 16 % 256 else 0) * 2 ^ 16 +
      (if 3 < r then din.toNat / 2 ^ 24 % 256 else 0) * 2 ^ 8 +
      (if 4 < r then din.toNat / 2 ^ 32 % 256 else 0) ∧
    (∀ k < 8, (symbolAt (groupValue r din) k).toNat = (groupValue r din).toNat / 2 ^ (35 - 5 * k) % 32)

/-- R107 (c) and R71: lanes `r` to 7 of DIN are never read by ENC. -/
def Obligations.EncIgnoresLanesPastTheCount : Prop :=
  ∀ (n : BitVec 3) (s : State) (d : Word), n.toNat ≤ 5 → (∀ k < n.toNat, lane d k = lane s.din k) →
    ∃ t u, exec (.enc n) s = .next t ∧ exec (.enc n) { s with din := d } = .next u ∧
      u.dout = t.dout ∧ u.status = t.status

/-- R84: no emitted character is one of `'6'` to `'9'`; each is one of the first 32 entries. -/
def Obligations.EncEmitsReachableEntriesOnly : Prop :=
  ∀ (n : BitVec 3) (s : State), n.toNat ≤ 5 → ∃ t, exec (.enc n) s = .next t ∧
    ∀ k < tokenWidth n.toNat, (∃ j < 32, lane t.dout k = romEntry j) ∧
      lane t.dout k ≠ 0x36 ∧ lane t.dout k ≠ 0x37 ∧ lane t.dout k ≠ 0x38 ∧ lane t.dout k ≠ 0x39

/-- R108: the last character of a tail token is the only one whose window covers an absent byte, and it carries zeros there. -/
def Obligations.TailPaddingBitsAreZero : Prop :=
  ∀ din : Word,
    symbolAt (groupValue 1 din) 1 = (lane din 0).extractLsb' 0 3 ++ 0#2 ∧
    symbolAt (groupValue 2 din) 3 = (lane din 1).extractLsb' 0 1 ++ 0#4 ∧
    symbolAt (groupValue 3 din) 4 = (lane din 2).extractLsb' 0 4 ++ 0#1 ∧
    symbolAt (groupValue 4 din) 6 = (lane din 3).extractLsb' 0 2 ++ 0#3 ∧
    (∀ r k, 1 ≤ r → r ≤ 4 → k < tokenWidth r →
      (5 * k + 5 ≤ 8 * r ↔ k + 1 < tokenWidth r) ∧
      (k + 1 < tokenWidth r → symbolAt (groupValue r din) k = symbolAt (groupValue 5 din) k))

/-! ## DEC -/

/-- R121: L is the index of the first lane that is no member, or 8. -/
def Obligations.TokenLengthIsTheFirstNonMember : Prop :=
  ∀ din : Word, tokenLength din ≤ 8 ∧ (∀ k < tokenLength din, isMember (lane din k) = true) ∧
    (tokenLength din < 8 → isMember (lane din (tokenLength din)) = false)

/-- R125: the byte counts, that byte `j` is produced exactly from its last symbol's position on, and `NB(L) = (5L)/8`. -/
def Obligations.ByteCounts : Prop :=
  byteCount 0 = 0 ∧ byteCount 1 = 0 ∧ byteCount 2 = 1 ∧ byteCount 3 = 1 ∧ byteCount 4 = 2 ∧ byteCount 5 = 3 ∧
  byteCount 6 = 3 ∧ byteCount 7 = 4 ∧ byteCount 8 = 5 ∧
  (∀ l ≤ 8, byteCount l = 5 * l / 8 ∧ (0 < byteCount l ↔ 2 ≤ l) ∧ (1 < byteCount l ↔ 4 ≤ l) ∧
    (2 < byteCount l ↔ 5 ≤ l) ∧ (3 < byteCount l ↔ 7 ≤ l) ∧ (4 < byteCount l ↔ l = 8))

/-- R120 by R124's shifts and masks: DEC runs whatever DIN holds; byte `j` of DOUT below NB(L) comes from the low 5 bits of the
characters' indices, above it 0; STATUS is R127's; nothing else changes. -/
def Obligations.DecFollowsShiftsAndMasks : Prop :=
  ∀ s : State, ∃ t, exec .dec s = .next t ∧
    (∀ j < 8, lane t.dout j =
      if j < byteCount (tokenLength s.din) then
        shiftMaskByte (fun k => if k < tokenLength s.din then
          BitVec.ofNat 8 ((indexByCode (lane s.din k)).getD 0 % 32) else 0) j
      else 0x00) ∧
    t = { s with
      dout := t.dout,
      status := { s.status with
        len := BitVec.ofNat 4 (byteCount (tokenLength s.din)), tlen := BitVec.ofNat 4 (tokenLength s.din),
        hit := false, last := decide (tokenLength s.din < 8) } }

/-- R127: STATUS after a legal DEC, as fields and as the low 16 bits of the word. -/
def Obligations.DecStatus : Prop :=
  ∀ s : State, ∃ t, exec .dec s = .next t ∧
    t.status.len.toNat = byteCount (tokenLength s.din) ∧ t.status.tlen.toNat = tokenLength s.din ∧
    t.status.hit = false ∧ (t.status.last = true ↔ tokenLength s.din < 8) ∧
    t.status.err = s.status.err ∧ t.status.ecode = s.status.ecode ∧
    t.status.word.extractLsb' 0 16 =
      (if tokenLength s.din < 8 then
        0x0200 ||| (BitVec.ofNat 16 (tokenLength s.din) <<< 4) ||| BitVec.ofNat 16 (byteCount (tokenLength s.din))
      else 0x0085)

/-- R126: lane `j` of DOUT is byte `j` of the token value below the byte count and 0 above it, so lanes 5 to 7 are always 0. -/
def Obligations.DecOutputLanes : Prop :=
  ∀ s : State, ∃ t, exec .dec s = .next t ∧
    (∀ j < byteCount (tokenLength s.din), lane t.dout j = (tokenValue s.din).extractLsb' (32 - 8 * j) 8) ∧
    (∀ j < 8, byteCount (tokenLength s.din) ≤ j → lane t.dout j = 0x00) ∧
    lane t.dout 5 = 0x00 ∧ lane t.dout 6 = 0x00 ∧ lane t.dout 7 = 0x00

/-- R130: lanes after the first non-member do not affect DEC, and the symbols at and past the token length are 0. -/
def Obligations.DecIgnoresLanesPastTheFirstNonMember : Prop :=
  ∀ (s : State) (d : Word), (∀ k < 8, k ≤ tokenLength s.din → lane d k = lane s.din k) →
    tokenLength d = tokenLength s.din ∧ (∀ k, tokenLength d ≤ k → tokenSymbol d k = 0) ∧
    ∃ t u, exec .dec s = .next t ∧ exec .dec { s with din := d } = .next u ∧ u.dout = t.dout ∧ u.status = t.status

/-- R129: `'6'` to `'9'` are members with indices 32 to 35 and symbol values 0 to 3, so a token in which they stand decodes like the
one with `'a'` to `'d'` in their place. -/
def Obligations.UnreachableMembersDecodeLikeTheFirstFour : Prop :=
  rev 0x36 = some 32 ∧ rev 0x37 = some 33 ∧ rev 0x38 = some 34 ∧ rev 0x39 = some 35 ∧
  (revIndex 0x36).setWidth 5 = 0#5 ∧ (revIndex 0x37).setWidth 5 = 1#5 ∧ (revIndex 0x38).setWidth 5 = 2#5 ∧
  (revIndex 0x39).setWidth 5 = 3#5 ∧
  (∀ (s : State) (d : Word), (∀ k < 8, lane d k = aliasOf (lane s.din k)) →
    ∃ t u, exec .dec s = .next t ∧ exec .dec { s with din := d } = .next u ∧ u.dout = t.dout ∧ u.status = t.status)

/-- R131: DEC inverts ENC. With the DOUT of `ENC r` written to DIN, DEC gives `L = W(r)`, `NB(L) = r` and the `r` bytes back. -/
def Obligations.DecInvertsEnc : Prop :=
  ∀ (n : BitVec 3) (s : State), n.toNat ≤ 5 → ∃ t u, exec (.enc n) s = .next t ∧
    exec .dec { t with din := t.dout } = .next u ∧
    u.status.tlen.toNat = tokenWidth n.toNat ∧ u.status.len.toNat = n.toNat ∧
    byteCount (tokenWidth n.toNat) = n.toNat ∧ (∀ j < n.toNat, lane u.dout j = lane s.din j)

/-! ## Rules about all commands -/

/-- The frame of the commands with a result: CMD, DIN, ERR, ECODE and the host's side are unchanged by ENC, DEC, LUT and RLUT with
legal operands (10_state.md R24, R26, R32, R33), and no command changes CMD, DIN or the host's side. -/
def Obligations.CommandsFrame : Prop :=
  ∀ (i : Instr) (s t : State), exec i s = .next t →
    t.cmd = s.cmd ∧ t.din = s.din ∧ t.resetAsserted = s.resetAsserted ∧ t.codecBase = s.codecBase ∧
    t.pending = s.pending ∧ t.returned = s.returned ∧
    (i.wf = true → i ≠ .clr → t.status.err = s.status.err ∧ t.status.ecode = s.status.ecode) ∧
    (i = .nop ∨ i.wf = false → t.dout = s.dout ∧ t.status.len = s.status.len ∧ t.status.tlen = s.status.tlen ∧
      t.status.hit = s.status.hit ∧ t.status.last = s.status.last)

/-- R174: ERR is sticky. An illegal word written while ERR = 1 changes nothing but CMD, and a legal command does the same with ERR
= 1 as with any other error state, which it leaves as it is unless it is CLR. -/
def Obligations.ErrorStateIsStickyAndInert : Prop :=
  (∀ (s : State) (v : Word) (c : IllegalCause) (rest : List HostEvent), s.AboutTo .cmd (some v) rest →
    decode v = .error c → s.status.err = true →
    ∃ p x, step s = .next { s with cmd := v, pending := p, returned := x }) ∧
  (∀ (i : Instr) (s t : State) (b : Bool) (e : BitVec 4), i.wf = true → exec i s = .next t →
    exec i { s with status := { s.status with err := b, ecode := e } } =
      .next (if i = .clr then t else { t with status := { t.status with err := b, ecode := e } }))

/-- R37: no hidden state. What ENC, DEC, LUT, RLUT and CLR leave in DOUT and in the result fields depends on the command word and DIN
alone: two blocks that agree on both agree on the result, whatever else they hold. -/
def Obligations.ResultDependsOnWordAndDinOnly : Prop :=
  ∀ (s s' : State) (v : Word) (i : Instr) (rest rest' : List HostEvent), s.din = s'.din →
    s.AboutTo .cmd (some v) rest → s'.AboutTo .cmd (some v) rest' → decode v = .ok i → i ≠ .nop →
    ∃ t t', step s = .next t ∧ step s' = .next t' ∧ t.dout = t'.dout ∧ t.status.len = t'.status.len ∧
      t.status.tlen = t'.status.tlen ∧ t.status.hit = t'.status.hit ∧ t.status.last = t'.status.last

/-- R24: only a host write changes DIN: where a step changes it, the host wrote that word to it, or reset or the return of power
cleared it. -/
def Obligations.OnlyAHostWriteChangesDin : Prop :=
  ∀ s t : State, step s = .next t → t.din ≠ s.din →
    (∃ rest, s.AboutTo .din (some t.din) rest) ∨
    (∃ rest, (s.pending = .assertReset :: rest ∨ s.pending = .powerRestored :: rest) ∧ t.din = 0)

/-- R25: DOUT changes only by a legal ENC, DEC, LUT, RLUT or CLR, by reset or by the return of power. -/
def Obligations.OnlyAResultCommandChangesDout : Prop :=
  ∀ s t : State, step s = .next t → t.dout ≠ s.dout →
    (∃ v i rest, s.AboutTo .cmd (some v) rest ∧ decode v = .ok i ∧ i ≠ .nop) ∨
    (∃ rest, (s.pending = .assertReset :: rest ∨ s.pending = .powerRestored :: rest) ∧ t.dout = 0)

/-- R32 and R175: only CLR, reset or the return of power clears ERR; only an illegal word sets it, and then ECODE is its code. -/
def Obligations.ErrIsSetByIllegalAndClearedByClrOrReset : Prop :=
  ∀ s t : State, step s = .next t →
    (s.status.err = true → t.status.err = false →
      (∃ rest, s.AboutTo .cmd (some 0x5) rest) ∨
      (∃ rest, s.pending = .assertReset :: rest ∨ s.pending = .powerRestored :: rest)) ∧
    (s.status.err = false → t.status.err = true →
      ∃ v c rest, s.AboutTo .cmd (some v) rest ∧ decode v = .error c ∧ t.status.ecode = c.code)

/-- The invariant holds right after reset. -/
def Obligations.InvariantHoldsAtReset : Prop := State.reset.Inv

/-- The invariant is kept by every step from every state that has it: STATUS coherent (R27 to R33, R170), DOUT zero at and past LEN
(R34), registers at their reset values while reset is asserted (R190). -/
def Obligations.InvariantIsKept : Prop :=
  ∀ s t : State, s.Inv → step s = .next t → t.Inv

/-! ## Streams -/

/-- R151: the encoded length. -/
def Obligations.EncodedLengthFormula : Prop :=
  ∀ d : List Byte, (encodeStream d).length =
    8 * (d.length / 5) +
      match d.length % 5 with
      | 0 => 0
      | 1 => 2
      | 2 => 4
      | 3 => 5
      | _ => 7

/-- R155: the round trip, for a byte sequence of every length. -/
def Obligations.StreamRoundTrip : Prop :=
  ∀ d : List Byte, decodeStream (encodeStream d ++ [0x00]) = d

/-- R157: every character of an encoded stream is one of ROM[0] to ROM[31]; none of `'6'` to `'9'` appears. -/
def Obligations.StreamAlphabetIsClosed : Prop :=
  ∀ d : List Byte, ∀ c ∈ encodeStream d,
    (∃ j < 32, c = romEntry j) ∧ c ≠ 0x36 ∧ c ≠ 0x37 ∧ c ≠ 0x38 ∧ c ≠ 0x39

/-- R154: the decoded length of a string whose first non-member is at `m`. -/
def Obligations.DecodedLengthFormula : Prop :=
  ∀ s : List Byte, leadingMembers s < s.length →
    (decodeStream s).length = 5 * (leadingMembers s / 8) + byteCount (leadingMembers s % 8) ∧
    (decodeStream s).length = 5 * leadingMembers s / 8

/-- R153: the characters after the first non-member do not matter, nor which non-member it is. -/
def Obligations.DecodingStopsAtTheFirstNonMember : Prop :=
  ∀ (cs rest : List Byte) (c : Byte), (∀ x ∈ cs, isMember x = true) → isMember c = false →
    decodeStream (cs ++ c :: rest) = decodeStream (cs ++ [0x00])

/-! ## Host software -/

/-- R72 and R73, one clause for each statement: `wr` and `rd` are one access to the register's offset; the word a command mnemonic
writes is the command's encoding; an operand out of range, a group of more than 5 bytes or a string of more than 8 characters is
refused; `encg` and `dect` write DIN first and CMD second, and `ldin` writes DIN alone, element `k` in lane `k` and 0 in the lanes
past the end. -/
def Obligations.HostStatementsStandForTheirAccesses : Prop :=
  ∀ base : Nat,
    (∀ v, HostStmt.accesses base (.wrCmd v) = some [{ address := base + 0x00, bits := 64, write := some v }]) ∧
    (∀ v, HostStmt.accesses base (.wrDin v) = some [{ address := base + 0x10, bits := 64, write := some v }]) ∧
    HostStmt.accesses base .rdCmd = some [{ address := base + 0x00, bits := 64, write := none }] ∧
    HostStmt.accesses base .rdStatus = some [{ address := base + 0x08, bits := 64, write := none }] ∧
    HostStmt.accesses base .rdDin = some [{ address := base + 0x10, bits := 64, write := none }] ∧
    HostStmt.accesses base .rdDout = some [{ address := base + 0x18, bits := 64, write := none }] ∧
    HostStmt.accesses base .nop = some [writeAccess base .cmd (encode .nop)] ∧
    HostStmt.accesses base .dec = some [writeAccess base .cmd (encode .dec)] ∧
    HostStmt.accesses base .clr = some [writeAccess base .cmd (encode .clr)] ∧
    (∀ c, HostStmt.accesses base (.rlut c) = some [writeAccess base .cmd (encode (.rlut c))]) ∧
    (∀ n, HostStmt.accesses base (.enc n) =
      if n ≤ 5 then some [writeAccess base .cmd (encode (.enc (BitVec.ofNat 3 n)))] else none) ∧
    (∀ i, HostStmt.accesses base (.lut i) =
      if i ≤ 35 then some [writeAccess base .cmd (encode (.lut (BitVec.ofNat 8 i)))] else none) ∧
    (∀ bs, HostStmt.accesses base (.encg bs) =
      if bs.length ≤ 5 then
        some [writeAccess base .din (laneWord bs), writeAccess base .cmd (encode (.enc (BitVec.ofNat 3 bs.length)))]
      else none) ∧
    (∀ cs, HostStmt.accesses base (.dect cs) =
      if cs.length ≤ 8 then some [writeAccess base .din (laneWord cs), writeAccess base .cmd (encode .dec)] else none) ∧
    (∀ cs, HostStmt.accesses base (.ldin cs) =
      if cs.length ≤ 8 then some [writeAccess base .din (laneWord cs)] else none) ∧
    (∀ (bs : List Byte) (k : Nat), k < 8 → lane (laneWord bs) k = bs.getD k 0x00)

/-- R158, R152 and R164: HostEncode, run on the block with `d` in the host's memory and room for the result, writes Encode(d) and one
0x00 at `out`, answers |Encode(d)|, issues `(size + 4)/5` commands, and changes no other byte. That its accesses come before
whatever is pending, with nothing between them, is the model's choice (log 15, DESIGN CHOICE). -/
def Obligations.HostEncodeComputesEncode : Prop :=
  ∀ (h : HostRun) (data out : Nat) (d : List Byte),
    h.block.resetAsserted = false → h.mem.holds data d → h.mem.room out ((encodeStream d).length + 1) →
    (∀ j < d.length, ∀ k < (encodeStream d).length + 1, data + j ≠ out + k) →
    ∃ h', hostEncode data d.length out h = .ok (h', (encodeStream d).length) ∧
      h'.mem.holds out (encodeStream d ++ [0x00]) ∧
      (∀ a, a < out ∨ out + (encodeStream d).length < a → h'.mem.read a = h.mem.read a) ∧
      h'.commands = h.commands + (d.length + 4) / 5 ∧
      h'.block.status.err = h.block.status.err ∧ h'.block.pending = h.block.pending

/-- R159, R154 and R164: HostDecode, run on the block with the string `cs` and its terminator in the host's memory and room for the
result, writes Decode and one 0x00 at `out`, answers the decoded byte count, issues `m/8 + 1` commands, and changes no other
byte. That its accesses come before whatever is pending, with nothing between them, is the model's choice (log 15, DESIGN
CHOICE). -/
def Obligations.HostDecodeComputesDecode : Prop :=
  ∀ (h : HostRun) (str out : Nat) (cs : List Byte),
    h.block.resetAsserted = false → (∀ c ∈ cs, c ≠ 0x00) → h.mem.holds str (cs ++ [0x00]) →
    h.mem.room out ((decodeStream (cs ++ [0x00])).length + 1) →
    (∀ j < cs.length + 1, ∀ k < (decodeStream (cs ++ [0x00])).length + 1, str + j ≠ out + k) →
    ∃ h', hostDecode str out h = .ok (h', (decodeStream (cs ++ [0x00])).length) ∧
      h'.mem.holds out (decodeStream (cs ++ [0x00]) ++ [0x00]) ∧
      (∀ a, a < out ∨ out + (decodeStream (cs ++ [0x00])).length < a → h'.mem.read a = h.mem.read a) ∧
      h'.commands = h.commands + (leadingMembers cs / 8 + 1) ∧
      h'.block.status.err = h.block.status.err ∧ h'.block.pending = h.block.pending

/-- R160 and R161, with the lengths of R151 and R154: the encoding of `d` and its terminator fit the encoder's capacity, and the
decoding of a string and its terminator fit the decoder's, whatever characters the string has (`strlen` counts the non-members
too); where all of them are members the decoder's capacity is exact. -/
def Obligations.CapacitiesSuffice : Prop :=
  (∀ d : List Byte, (encodeStream d).length = encodedLength d.length ∧
    (encodeStream d).length + 1 ≤ encodeCapacity d.length) ∧
  (∀ cs : List Byte, (∀ c ∈ cs, c ≠ 0x00) →
    (decodeStream (cs ++ [0x00])).length = decodedLength (leadingMembers cs) ∧
    (decodeStream (cs ++ [0x00])).length + 1 ≤ decodeCapacity cs.length) ∧
  (∀ cs : List Byte, (∀ c ∈ cs, isMember c = true) →
    (decodeStream (cs ++ [0x00])).length + 1 = decodeCapacity cs.length)

/-- R162: an allocation failure releases the buffer, sets its capacity to zero, signals failure told apart from every length, and
leaves the block as it was. The host's memory stays but for the buffer's own bytes: that they are no longer mapped is the model's
choice (U3, log 14). -/
def Obligations.AllocationFailureReleasesTheBuffer : Prop :=
  ∀ (h : HostRun) (b : HostBuffer),
    let failed (r : Except HostStop (HostRun × HostBuffer × HostResult)) : Prop :=
      ∃ m, r = .ok ({ h with mem := m }, { address := none, capacity := 0 }, .failed) ∧
        (∀ a x, b.address = some a → a ≤ x → x < a + b.capacity → m.read x = none) ∧
        (∀ x, (∀ a, b.address = some a → x < a ∨ a + b.capacity ≤ x) → m.read x = h.mem.read x)
    (∀ data size, (b.address = none ∨ b.capacity < encodeCapacity size) → failed (encodeInto data size none b h)) ∧
    (∀ str cs, (∀ c ∈ cs, c ≠ 0x00) → h.mem.holds str (cs ++ [0x00]) →
      (b.address = none ∨ b.capacity < decodeCapacity cs.length) → failed (decodeInto str none b h)) ∧
    (∀ (failSentinel : Int) (n : Nat), failSentinel < 0 →
      HostResult.signal failSentinel .failed ≠ HostResult.signal failSentinel (.length n))

/-- R163: a buffer whose capacity suffices is reused in place, whatever the allocator would answer; an insufficient one is
replaced by one that suffices, where the allocator gives it. -/
def Obligations.SufficientBufferIsReused : Prop :=
  ∀ (need a : Nat) (b : HostBuffer),
    (b.address = some a → need ≤ b.capacity → ∀ alloc, reserve need alloc b = some (a, b)) ∧
    (b.address = none ∨ b.capacity < need → ∀ a', ∃ b', reserve need (some a') b = some (a', b') ∧ b'.address = some a' ∧
      need ≤ b'.capacity)
end

