-- ==== Sys2Proof/Laws/Decode.lean ====
section
/-! SUPPORT. The command word and the decoder: a word is its fields, and everything the decoder can answer. -/

namespace Sys2Proof

/-- A word is its five fields (R60). -/
theorem word_eq_fields (v : Word) :
    v = (reservedHigh v ++ argField v ++ reservedBit7 v ++ nField v ++ opField v : BitVec (48 + 8 + 1 + 3 + 4)) := by
  apply BitVec.eq_of_getLsbD_eq
  intro i hi
  simp only [BitVec.getLsbD_append, reservedHigh, argField, reservedBit7, nField, opField, BitVec.getLsbD_extractLsb']
  interval_cases i <;> simp

/-- What a legal word's fields are, command by command. -/
theorem decode_cases {v : Word} {i : Instr} (h : decode v = .ok i) :
    reservedHigh v = 0 ∧ reservedBit7 v = 0 ∧
      ((opField v = 0 ∧ nField v = 0 ∧ argField v = 0 ∧ i = .nop) ∨
       (opField v = 1 ∧ (nField v).toNat ≤ 5 ∧ argField v = 0 ∧ i = .enc (nField v)) ∨
       (opField v = 2 ∧ nField v = 0 ∧ argField v = 0 ∧ i = .dec) ∨
       (opField v = 3 ∧ nField v = 0 ∧ (argField v).toNat < 36 ∧ i = .lut (argField v)) ∨
       (opField v = 4 ∧ nField v = 0 ∧ i = .rlut (argField v)) ∨
       (opField v = 5 ∧ nField v = 0 ∧ argField v = 0 ∧ i = .clr)) := by
  unfold decode illegalCause at h
  split_ifs at h with h1 h2 h3 h4 h5
  simp only [not_or, not_not, Nat.not_le, not_and_or] at h1 h2 h3 h4 h5
  refine ⟨h2.1, h2.2, ?_⟩
  have hop : opField v = BitVec.ofNat 4 (opField v).toNat := by simp
  unfold selectCommand at h
  generalize hk : (opField v).toNat = k at *
  interval_cases k <;> simp_all
  omega

/-- A rejected word is rejected for the first condition of R67 that holds. -/
theorem decode_error {v : Word} {c : IllegalCause} (h : decode v = .error c) : illegalCause v = some c := by
  unfold decode at h
  split at h
  · next hc => rw [hc]; simpa using h
  · next hc =>
    have h6 : (opField v).toNat < 6 := by
      by_contra hge
      simp [illegalCause, Nat.le_of_not_lt hge] at hc
    unfold selectCommand at h
    generalize (opField v).toNat = k at *
    interval_cases k <;> simp at h

end Sys2Proof
end

