-- ==== Sys2Proof/Laws/State.lean ====
section
/-! SUPPORT. One lemma per field per update, true by rfl, so that no later proof unfolds a record update. -/

namespace Sys2Proof.Machine

@[simp] theorem withResult_len (t : Status) (l m : Nat) (h a : Bool) : (t.withResult l m h a).len = BitVec.ofNat 4 l := rfl
@[simp] theorem withResult_tlen (t : Status) (l m : Nat) (h a : Bool) : (t.withResult l m h a).tlen = BitVec.ofNat 4 m := rfl
@[simp] theorem withResult_hit (t : Status) (l m : Nat) (h a : Bool) : (t.withResult l m h a).hit = h := rfl
@[simp] theorem withResult_last (t : Status) (l m : Nat) (h a : Bool) : (t.withResult l m h a).last = a := rfl
@[simp] theorem withResult_err (t : Status) (l m : Nat) (h a : Bool) : (t.withResult l m h a).err = t.err := rfl
@[simp] theorem withResult_ecode (t : Status) (l m : Nat) (h a : Bool) : (t.withResult l m h a).ecode = t.ecode := rfl

/-- An illegal command recorded while ERR = 1 changes nothing (R174). -/
@[simp] theorem withIllegal_of_err (t : Status) (c : IllegalCause) (h : t.err = true) : t.withIllegal c = t := by
  simp [Status.withIllegal, h]

/-- The first illegal command sets ERR and records its code (R172). -/
theorem withIllegal_of_not_err (t : Status) (c : IllegalCause) (h : t.err = false) :
    t.withIllegal c = { t with err := true, ecode := c.code } := by
  simp [Status.withIllegal, h]

@[simp] theorem withIllegal_len (t : Status) (c : IllegalCause) : (t.withIllegal c).len = t.len := by
  unfold Status.withIllegal; split <;> rfl
@[simp] theorem withIllegal_tlen (t : Status) (c : IllegalCause) : (t.withIllegal c).tlen = t.tlen := by
  unfold Status.withIllegal; split <;> rfl
@[simp] theorem withIllegal_hit (t : Status) (c : IllegalCause) : (t.withIllegal c).hit = t.hit := by
  unfold Status.withIllegal; split <;> rfl
@[simp] theorem withIllegal_last (t : Status) (c : IllegalCause) : (t.withIllegal c).last = t.last := by
  unfold Status.withIllegal; split <;> rfl
@[simp] theorem withIllegal_err (t : Status) (c : IllegalCause) : (t.withIllegal c).err = true := by
  unfold Status.withIllegal; split <;> simp_all

section Updates

variable (d : Word) (l m : Nat) (h a : Bool) (s : State)

@[simp] theorem writeResult_cmd : (writeResult d l m h a s).cmd = s.cmd := rfl
@[simp] theorem writeResult_status : (writeResult d l m h a s).status = s.status.withResult l m h a := rfl
@[simp] theorem writeResult_din : (writeResult d l m h a s).din = s.din := rfl
@[simp] theorem writeResult_dout : (writeResult d l m h a s).dout = d := rfl
@[simp] theorem writeResult_resetAsserted : (writeResult d l m h a s).resetAsserted = s.resetAsserted := rfl
@[simp] theorem writeResult_codecBase : (writeResult d l m h a s).codecBase = s.codecBase := rfl
@[simp] theorem writeResult_pending : (writeResult d l m h a s).pending = s.pending := rfl
@[simp] theorem writeResult_returned : (writeResult d l m h a s).returned = s.returned := rfl

variable (c : IllegalCause)

@[simp] theorem takeIllegal_cmd : (takeIllegal c s).cmd = s.cmd := rfl
@[simp] theorem takeIllegal_status : (takeIllegal c s).status = s.status.withIllegal c := rfl
@[simp] theorem takeIllegal_din : (takeIllegal c s).din = s.din := rfl
@[simp] theorem takeIllegal_dout : (takeIllegal c s).dout = s.dout := rfl
@[simp] theorem takeIllegal_resetAsserted : (takeIllegal c s).resetAsserted = s.resetAsserted := rfl
@[simp] theorem takeIllegal_codecBase : (takeIllegal c s).codecBase = s.codecBase := rfl
@[simp] theorem takeIllegal_pending : (takeIllegal c s).pending = s.pending := rfl
@[simp] theorem takeIllegal_returned : (takeIllegal c s).returned = s.returned := rfl

@[simp] theorem clearState_cmd : (clearState s).cmd = s.cmd := rfl
@[simp] theorem clearState_status : (clearState s).status = Status.zero := rfl
@[simp] theorem clearState_din : (clearState s).din = s.din := rfl
@[simp] theorem clearState_dout : (clearState s).dout = 0 := rfl
@[simp] theorem clearState_resetAsserted : (clearState s).resetAsserted = s.resetAsserted := rfl
@[simp] theorem clearState_codecBase : (clearState s).codecBase = s.codecBase := rfl
@[simp] theorem clearState_pending : (clearState s).pending = s.pending := rfl
@[simp] theorem clearState_returned : (clearState s).returned = s.returned := rfl

@[simp] theorem resetRegisters_cmd : (resetRegisters s).cmd = 0 := rfl
@[simp] theorem resetRegisters_status : (resetRegisters s).status = Status.zero := rfl
@[simp] theorem resetRegisters_din : (resetRegisters s).din = 0 := rfl
@[simp] theorem resetRegisters_dout : (resetRegisters s).dout = 0 := rfl
@[simp] theorem resetRegisters_resetAsserted : (resetRegisters s).resetAsserted = s.resetAsserted := rfl
@[simp] theorem resetRegisters_codecBase : (resetRegisters s).codecBase = s.codecBase := rfl
@[simp] theorem resetRegisters_pending : (resetRegisters s).pending = s.pending := rfl
@[simp] theorem resetRegisters_returned : (resetRegisters s).returned = s.returned := rfl

variable (nbits w : Nat) (as : List Access)

@[simp] theorem withFetchWord_cmd : (s.withFetchWord nbits w).cmd = s.cmd := rfl
@[simp] theorem withFetchWord_status : (s.withFetchWord nbits w).status = s.status := rfl
@[simp] theorem withFetchWord_din : (s.withFetchWord nbits w).din = s.din := rfl
@[simp] theorem withFetchWord_dout : (s.withFetchWord nbits w).dout = s.dout := rfl
@[simp] theorem withFetchWord_resetAsserted : (s.withFetchWord nbits w).resetAsserted = false := rfl
@[simp] theorem withFetchWord_codecBase : (s.withFetchWord nbits w).codecBase = s.codecBase := rfl
@[simp] theorem withFetchWord_returned : (s.withFetchWord nbits w).returned = s.returned := rfl

@[simp] theorem withAccesses_pending : (s.withAccesses as).pending = as.map .access ++ s.pending := rfl
@[simp] theorem withAccesses_codecBase : (s.withAccesses as).codecBase = s.codecBase := rfl

end Updates

@[simp] theorem zero_len : Status.zero.len = 0 := rfl
@[simp] theorem zero_tlen : Status.zero.tlen = 0 := rfl
@[simp] theorem zero_hit : Status.zero.hit = false := rfl
@[simp] theorem zero_last : Status.zero.last = false := rfl
@[simp] theorem zero_err : Status.zero.err = false := rfl
@[simp] theorem zero_ecode : Status.zero.ecode = 0 := rfl

end Sys2Proof.Machine
end

