-- ==== Sys2Proof/Laws/Operands.lean ====
section
/-! SUPPORT. Lanes, words made of lanes, the ROM lookups and the codec's tables: what each shared operation does, said once. -/

namespace Sys2Proof.Machine

/-- A bit of a word made of lanes is a bit of its lane (R45). -/
theorem getLsbD_ofLanes (f : Nat → Byte) (i : Nat) (h : i < 64) :
    (ofLanes f).getLsbD i = (f (i / 8)).getLsbD (i % 8) := by
  have h₁ : (ofLanes f).getLsbD i =
      BitVec.getLsbD (w := 8 + 8 + 8 + 8 + 8 + 8 + 8 + 8)
        (f 7 ++ f 6 ++ f 5 ++ f 4 ++ f 3 ++ f 2 ++ f 1 ++ f 0) i := rfl
  rw [h₁]
  simp only [BitVec.getLsbD_append]
  interval_cases i <;> rfl

/-- A lane of a word made of lanes (R45). -/
@[simp] theorem lane_ofLanes (f : Nat → Byte) (k : Nat) (h : k < 8) : lane (ofLanes f) k = f k := by
  apply BitVec.eq_of_getLsbD_eq
  intro i hi
  rw [lane, BitVec.getLsbD_extractLsb', getLsbD_ofLanes _ _ (by omega)]
  rw [show (8 * k + i) / 8 = k by omega, show (8 * k + i) % 8 = i by omega]
  simp [hi]

/-- A word is its eight lanes. -/
theorem word_ext_lanes {v w : Word} (h : ∀ k < 8, lane v k = lane w k) : v = w := by
  apply BitVec.eq_of_getLsbD_eq
  intro i hi
  have hk := congrArg (fun b : Byte => b.getLsbD (i % 8)) (h (i / 8) (by omega))
  have hm : i % 8 < 8 := Nat.mod_lt _ (by decide)
  simpa [lane, BitVec.getLsbD_extractLsb', hm, Nat.div_add_mod] using hk

theorem ofLanes_congr {f g : Nat → Byte} (h : ∀ k < 8, f k = g k) : ofLanes f = ofLanes g :=
  word_ext_lanes fun k hk => by simp [hk, h k hk]

@[simp] theorem lane_laneWord (bs : List Byte) (k : Nat) (h : k < 8) : lane (laneWord bs) k = bs.getD k 0 := by
  unfold laneWord; rw [lane_ofLanes _ _ h]

@[simp] theorem lane_zero (k : Nat) : lane 0#64 k = 0#8 := by simp [lane]

theorem lanes_length (w : Word) : (lanes w).length = 8 := rfl

theorem lanes_getElem? (w : Word) (k : Nat) (h : k < 8) : (lanes w)[k]? = some (lane w k) := by
  unfold lanes
  interval_cases k <;> rfl

/-- The eight lanes of a word made of a list of eight. -/
theorem lanes_laneWord (bs : List Byte) (h : bs.length = 8) : lanes (laneWord bs) = bs := by
  apply List.ext_getElem?
  intro k
  rcases Nat.lt_or_ge k 8 with hk | hk
  · rw [lanes_getElem? _ _ hk, lane_laneWord _ _ hk, List.getD_eq_getElem?_getD, List.getElem?_eq_getElem (by omega)]
    rfl
  · rw [List.getElem?_eq_none (by rw [lanes_length]; exact hk), List.getElem?_eq_none (by omega)]

/-- The reverse lookup as a decision on the code: the letters and digits, each with its index (R21, R82). -/
theorem rev_eq_none_or_index (c : Byte) :
    rev c = if 0x61 ≤ c.toNat ∧ c.toNat ≤ 0x7A then some (BitVec.ofNat 6 (c.toNat - 0x61))
      else if 0x30 ≤ c.toNat ∧ c.toNat ≤ 0x39 then some (BitVec.ofNat 6 (c.toNat - 0x30 + 26)) else none := by
  revert c
  decide

/-- Looking up an emitted character gives its symbol's index back (R22). -/
theorem rev_fwd (x : Symbol) : rev (fwd x) = some (x.setWidth 6) := by
  revert x
  decide

@[simp] theorem isMember_fwd (x : Symbol) : isMember (fwd x) = true := by simp [isMember, rev_fwd]

@[simp] theorem isMember_zero : isMember 0#8 = false := by decide

theorem fwd_eq_entry (x : Symbol) : ∃ j < 32, fwd x = romEntry j := ⟨x.toNat, x.isLt, rfl⟩

theorem leadingMembers_le (cs : List Byte) : leadingMembers cs ≤ cs.length := by
  induction cs with
  | nil => simp [leadingMembers]
  | cons c cs ih => simp only [leadingMembers, List.length_cons]; split <;> omega

theorem leadingMembers_append (cs ds : List Byte) (h : ∀ c ∈ cs, isMember c = true) :
    leadingMembers (cs ++ ds) = cs.length + leadingMembers ds := by
  induction cs with
  | nil => simp
  | cons c cs ih =>
    simp only [List.mem_cons, forall_eq_or_imp] at h
    simp [leadingMembers, h.1, ih h.2]; omega

theorem tokenLength_le (din : Word) : tokenLength din ≤ 8 := leadingMembers_le (lanes din)

theorem byteCount_eq (l : Nat) (h : l ≤ 8) : byteCount l = 5 * l / 8 := by
  interval_cases l <;> rfl

theorem byteCount_le (l : Nat) : byteCount l ≤ 5 := by
  unfold byteCount; split <;> omega

theorem tokenWidth_le (r : Nat) : tokenWidth r ≤ 8 := by
  unfold tokenWidth; split <;> omega

/-- A terminator adds no leading member. -/
@[simp] theorem leadingMembers_terminated (cs : List Byte) : leadingMembers (cs ++ [0#8]) = leadingMembers cs := by
  induction cs with
  | nil => simp [leadingMembers]
  | cons c cs ih => simp [leadingMembers, ih]

end Sys2Proof.Machine
end

