-- ==== Sys2Proof/Laws/Step.lean ====
section
/-! SUPPORT. Inversion lemmas: what the decoder, `exec` and one step can do, each said once. -/

namespace Sys2Proof.Machine

/-- Everything a command can do: NOP nothing, CLR clears, an operand out of range raises IllegalCommand, and the other four
write a result. -/
theorem exec_cases (i : Instr) (s : State) :
    (i = .nop ∧ exec i s = .next s) ∨
    (i = .clr ∧ exec i s = .next (clearState s)) ∨
    (i.wf = false ∧ ∃ c, exec i s = .next (takeIllegal c s)) ∨
    (i.wf = true ∧ i ≠ .nop ∧ i ≠ .clr ∧
      ∃ d l m h a, exec i s = .next (writeResult d l m h a s)) := by
  cases i with
  | nop => exact .inl ⟨rfl, rfl⟩
  | clr => exact .inr (.inl ⟨rfl, rfl⟩)
  | dec => exact .inr (.inr (.inr ⟨rfl, by simp, by simp, _, _, _, _, _, rfl⟩))
  | rlut c => exact .inr (.inr (.inr ⟨rfl, by simp, by simp, _, _, _, _, _, rfl⟩))
  | enc n =>
    by_cases hn : n.toNat ≤ Config.groupBytes
    · exact .inr (.inr (.inr ⟨by simp [Instr.wf, hn], by simp, by simp, _, _, _, _, _, by simp [exec, execEnc, hn]; rfl⟩))
    · exact .inr (.inr (.inl ⟨by simp [Instr.wf]; omega, _, by simp [exec, execEnc, hn]; rfl⟩))
  | lut k =>
    by_cases hk : k.toNat < Config.alphabetSize
    · exact .inr (.inr (.inr ⟨by simp [Instr.wf, hk], by simp, by simp, _, _, _, _, _, by simp [exec, execLut, hk]; rfl⟩))
    · exact .inr (.inr (.inl ⟨by simp [Instr.wf]; omega, _, by simp [exec, execLut, hk]; rfl⟩))

/-- The offset of an address in a register's slot selects that register (R42). -/
theorem selectReg_slot (base a : Nat) (r : Reg) (h₁ : base + r.offset ≤ a) (h₂ : a < base + r.offset + 8) :
    ∃ o, windowOffset base a = some o ∧ selectReg o = r := by
  obtain ⟨d, rfl⟩ : ∃ d, a = base + d := ⟨a - base, by omega⟩
  refine ⟨BitVec.ofNat 5 d, ?_, ?_⟩
  · have : d < 32 := by cases r <;> simp only [Reg.offset] at h₂ <;> omega
    simp [windowOffset, Config.windowSize, this]
  · have hd : d < 32 := by cases r <;> simp only [Reg.offset] at h₂ <;> omega
    have key : ∀ d < 32, selectReg (BitVec.ofNat 5 d) =
        if d < 8 then Reg.cmd else if d < 16 then .status else if d < 24 then .din else .dout := by decide
    rw [key d hd]
    cases r <;> simp only [Reg.offset] at h₁ h₂ <;> split_ifs <;> first | rfl | omega

/-- The step of an access to a register while reset is not asserted is the register's own read or write. -/
theorem step_of_aboutTo {s : State} {r : Reg} {w : Option Word} {rest : List HostEvent} (h : s.AboutTo r w rest) :
    step s = accessReg r w { s with pending := rest } := by
  obtain ⟨-, a, h₁, h₂, hp⟩ := h
  obtain ⟨o, ho, hr⟩ := selectReg_slot s.codecBase a r h₁ h₂
  simp [step, hp, respond, performAccess, Config.accessBits, ho, hr]

theorem step_read {s : State} {r : Reg} {rest : List HostEvent} (h : s.AboutTo r none rest) :
    step s = .next { s with pending := rest, returned := some (readReg r s) } := by
  have hr := h.1
  rw [step_of_aboutTo h]
  cases r <;> simp [accessReg, hr, readReg]

theorem step_write {s : State} {r : Reg} {v : Word} {rest : List HostEvent} (h : s.AboutTo r (some v) rest) :
    step s = writeReg r v { s with pending := rest, returned := none } := by
  have hr := h.1
  rw [step_of_aboutTo h]
  simp [accessReg, hr]

/-- Everything a host write of a register can do. -/
theorem writeReg_cases {r : Reg} {v : Word} {s t : State} (h : writeReg r v s = .next t) :
    (r = .cmd ∧ ∃ i, decode v = .ok i ∧ exec i { s with cmd := v } = .next t) ∨
    (r = .cmd ∧ ∃ c, decode v = .error c ∧ t = takeIllegal c { s with cmd := v }) ∨
    (r = .din ∧ t = { s with din := v }) ∨
    ((r = .status ∨ r = .dout) ∧ t = s) := by
  cases r with
  | cmd =>
    simp only [writeReg, writeCmd] at h
    cases hd : decode v with
    | ok i => rw [hd] at h; exact .inl ⟨rfl, i, rfl, h⟩
    | error c => rw [hd] at h; exact .inr (.inl ⟨rfl, c, rfl, by simpa using h.symm⟩)
  | din => exact .inr (.inr (.inl ⟨rfl, by simpa [writeReg] using h.symm⟩))
  | status => exact .inr (.inr (.inr ⟨.inl rfl, by simpa [writeReg] using h.symm⟩))
  | dout => exact .inr (.inr (.inr ⟨.inr rfl, by simpa [writeReg] using h.symm⟩))

/-- Everything a step can do when it answers a next state. -/
theorem step_cases {s t : State} (h : step s = .next t) :
    (s.pending = [] ∧ t = s) ∨
    (∃ rest, s.pending = .assertReset :: rest ∧
      t = { resetRegisters { s with pending := rest } with resetAsserted := true }) ∨
    (∃ rest, s.pending = .releaseReset :: rest ∧ t = { s with pending := rest, resetAsserted := false }) ∨
    (∃ rest, s.pending = .powerRestored :: rest ∧ t = resetRegisters { s with pending := rest }) ∨
    (∃ rest x, s.resetAsserted = true ∧ t = { s with pending := rest, returned := x }) ∨
    (∃ r rest, s.AboutTo r none rest ∧ t = { s with pending := rest, returned := some (readReg r s) }) ∨
    (∃ r v rest, s.AboutTo r (some v) rest ∧
      writeReg r v { s with pending := rest, returned := none } = .next t) := by
  unfold step at h
  split at h
  · next hp => exact .inl ⟨hp, by simpa using h.symm⟩
  · next e rest hp =>
    cases e with
    | assertReset => exact .inr (.inl ⟨rest, hp, by simpa [respond] using h.symm⟩)
    | releaseReset => exact .inr (.inr (.inl ⟨rest, hp, by simpa [respond] using h.symm⟩))
    | powerRestored => exact .inr (.inr (.inr (.inl ⟨rest, hp, by simpa [respond] using h.symm⟩)))
    | access a =>
      have h0 := h
      simp only [respond, performAccess] at h
      split at h
      · next hb =>
        split at h
        · next o ho =>
          cases hr : s.resetAsserted with
          | true =>
            refine .inr (.inr (.inr (.inr (.inl ?_))))
            cases hw : a.write with
            | none => exact ⟨rest, _, rfl, by simpa [accessReg, hr, hw] using h.symm⟩
            | some v => exact ⟨rest, _, rfl, by simpa [accessReg, hr, hw] using h.symm⟩
          | false =>
            have hin : s.codecBase ≤ a.address ∧ a.address < s.codecBase + 0x20 := by
              by_contra hc
              simp [windowOffset, Config.windowSize, hc] at ho
            have slot : ∃ r : Reg, s.codecBase + r.offset ≤ a.address ∧ a.address < s.codecBase + r.offset + 8 := by
              rcases Nat.lt_or_ge a.address (s.codecBase + 8) with h8 | h8
              · exact ⟨.cmd, by simp [Reg.offset]; omega, by simp [Reg.offset]; omega⟩
              rcases Nat.lt_or_ge a.address (s.codecBase + 16) with h16 | h16
              · exact ⟨.status, by simp [Reg.offset]; omega, by simp [Reg.offset]; omega⟩
              rcases Nat.lt_or_ge a.address (s.codecBase + 24) with h24 | h24
              · exact ⟨.din, by simp [Reg.offset]; omega, by simp [Reg.offset]; omega⟩
              · exact ⟨.dout, by simp [Reg.offset]; omega, by simp [Reg.offset]; omega⟩
            obtain ⟨r, hs₁, hs₂⟩ := slot
            have hab : s.AboutTo r a.write rest := by
              refine ⟨hr, a.address, hs₁, hs₂, ?_⟩
              rw [hp]
              cases a
              simp_all [Config.accessBits]
            have hstep : step s = .next t := by simpa [step, hp] using h0
            cases hw : a.write with
            | none =>
              rw [hw] at hab
              rw [step_read hab] at hstep
              exact .inr (.inr (.inr (.inr (.inr (.inl ⟨r, rest, hab, by simpa [hr] using hstep.symm⟩)))))
            | some v =>
              rw [hw] at hab
              rw [step_write hab] at hstep
              exact .inr (.inr (.inr (.inr (.inr (.inr ⟨r, v, rest, hab, by simpa [hr] using hstep⟩)))))
        · cases h
      · cases h

end Sys2Proof.Machine
end

