-- ==== Sys2Proof/Laws/Codec.lean ====
section
/-! SUPPORT. The encoder's and the decoder's bit layout, one bit at a time; token length; the equations of ENC; the lengths of
tokens; and the recursion of the stream functions. -/

namespace Sys2Proof.Machine

/-- A legal ENC is the writing of its result (R100). -/
theorem exec_enc (n : BitVec 3) (s : State) (h : n.toNat ≤ 5) :
    exec (.enc n) s = .next (writeResult (encodeGroup n.toNat s.din) (tokenWidth n.toNat) 0 false
      (decide (n.toNat < 5)) s) := by
  have h' : n.toNat ≤ Config.groupBytes := h
  simp only [exec, execEnc, if_pos h']; rfl

/-- A bit of the group value is a bit of one of its bytes, the first byte most significant (R101). -/
theorem groupValue_getLsbD (r : Nat) (d : Word) (i : Nat) (hi : i < 40) :
    (groupValue r d).getLsbD i = (groupByte r d (4 - i / 8)).getLsbD (i % 8) := by
  have h : (groupValue r d).getLsbD i = BitVec.getLsbD (w := 8 + 8 + 8 + 8 + 8)
      (groupByte r d 0 ++ groupByte r d 1 ++ groupByte r d 2 ++ groupByte r d 3 ++ groupByte r d 4) i := rfl
  rw [h]
  simp only [BitVec.getLsbD_append]
  interval_cases i <;> rfl

/-- A bit of a symbol is a bit of one of the group's bytes (R102). -/
theorem symbolAt_getLsbD (r : Nat) (d : Word) (k i : Nat) (hk : k < 8) (hi : i < 5) :
    (symbolAt (groupValue r d) k).getLsbD i =
      (groupByte r d (4 - (35 - 5 * k + i) / 8)).getLsbD ((35 - 5 * k + i) % 8) := by
  rw [symbolAt, BitVec.getLsbD_extractLsb', groupValue_getLsbD _ _ _ (by omega)]
  simp [hi]

/-- A bit of the token value is a bit of one of its symbols, the first symbol most significant (R123). -/
theorem tokenValue_getLsbD (d : Word) (i : Nat) (hi : i < 40) :
    (tokenValue d).getLsbD i = (tokenSymbol d (7 - i / 5)).getLsbD (i % 5) := by
  have h : (tokenValue d).getLsbD i = BitVec.getLsbD (w := 5 + 5 + 5 + 5 + 5 + 5 + 5 + 5)
      (tokenSymbol d 0 ++ tokenSymbol d 1 ++ tokenSymbol d 2 ++ tokenSymbol d 3 ++
       tokenSymbol d 4 ++ tokenSymbol d 5 ++ tokenSymbol d 6 ++ tokenSymbol d 7) i := rfl
  rw [h]
  simp only [BitVec.getLsbD_append]
  interval_cases i <;> rfl

/-- Leading members: all before the count are members, and the element at the count is none. -/
theorem leadingMembers_spec (cs : List Byte) :
    (∀ k < leadingMembers cs, isMember (cs.getD k 0) = true) ∧
    (leadingMembers cs < cs.length → isMember (cs.getD (leadingMembers cs) 0) = false) := by
  induction cs with
  | nil => simp [leadingMembers]
  | cons c cs ih =>
    by_cases hc : isMember c = true
    · simp only [leadingMembers, hc, if_true]
      refine ⟨fun k hk => ?_, fun h => by simpa using ih.2 (by simpa using h)⟩
      cases k with
      | zero => simpa using hc
      | succ k => simpa using ih.1 k (by omega)
    · simp [leadingMembers, hc]

theorem lanes_getD (d : Word) (k : Nat) (h : k < 8) : (lanes d).getD k 0 = lane d k := by
  simp [List.getD_eq_getElem?_getD, lanes_getElem? _ _ h]

/-- The number that has members before it and no member at it is the token length (R121). -/
theorem tokenLength_unique (d : Word) (l : Nat) (h8 : l ≤ 8) (h1 : ∀ k < l, isMember (lane d k) = true)
    (h2 : l < 8 → isMember (lane d l) = false) : tokenLength d = l := by
  have hs := leadingMembers_spec (lanes d)
  have h := tokenLength_le d
  unfold tokenLength at *
  rcases Nat.lt_trichotomy (leadingMembers (lanes d)) l with hlt | he | hgt
  · have a := hs.2 (by rw [lanes_length]; omega)
    rw [lanes_getD _ _ (by omega), h1 _ hlt] at a
    cases a
  · exact he
  · have a := hs.1 _ hgt
    rw [lanes_getD _ _ (by omega), h2 (by omega)] at a
    cases a

/-- DEC looks at the token length and at the low 5 bits of the indices before it, and at nothing else (R121, R122). -/
theorem decodeToken_congr {d e : Word} (ht : tokenLength d = tokenLength e)
    (h : ∀ k < tokenLength e, (revIndex (lane d k)).setWidth 5 = (revIndex (lane e k)).setWidth 5) :
    decodeToken d = decodeToken e := by
  have hs : tokenSymbol d = tokenSymbol e := by
    funext k
    unfold tokenSymbol
    rw [ht]
    split
    · next hk => exact h k hk
    · rfl
  unfold decodeToken tokenValue
  rw [ht, hs]

/-- The token that ENC emits has the length W(r): its characters are members and the terminator is none. -/
theorem tokenLength_encodeGroup (r : Nat) (d : Word) : tokenLength (encodeGroup r d) = tokenWidth r := by
  have hw := tokenWidth_le r
  apply tokenLength_unique _ _ hw
  · intro k hk
    simp [encodeGroup, lane_ofLanes _ _ (show k < 8 by omega), hk]
  · intro h
    simp only [encodeGroup, lane_ofLanes _ _ h, Nat.lt_irrefl, if_false]
    exact isMember_zero

/-- The symbols DEC finds in an emitted token are those ENC put there. -/
theorem tokenSymbol_encodeGroup (r : Nat) (d : Word) (k : Nat) (hk : k < tokenWidth r) :
    tokenSymbol (encodeGroup r d) k = symbolAt (groupValue r d) k := by
  have hw := tokenWidth_le r
  rw [tokenSymbol, tokenLength_encodeGroup r, if_pos hk, encodeGroup, lane_ofLanes _ _ (by omega), if_pos hk, revIndex,
    rev_fwd]
  simp

theorem encTok_length (g : List Byte) : (encTok g).length = tokenWidth g.length := by
  have := tokenWidth_le g.length
  simp [encTok, lanes_length, this]

theorem decTok_length (t : Word) : (decTok t).length = byteCount (tokenLength t) := by
  have := byteCount_le (tokenLength t)
  simp [decTok, lanes_length]; omega

theorem encodeStream_nil : encodeStream [] = [] := rfl

/-- The first group and the rest (R150). -/
theorem encodeStream_eq (d : List Byte) (h : d ≠ []) :
    encodeStream d = encTok (d.take 5) ++ encodeStream (d.drop 5) := by
  have hl : 0 < d.length := List.length_pos_iff.2 h
  have hg : groupCount d.length = groupCount (d.length - 5) + 1 := by unfold groupCount; omega
  simp [encodeStream, hg, encodeGroups, Config.groupBytes, List.length_drop]

/-- The first token and the rest (R153). -/
theorem decodeStream_eq (s : List Byte) :
    decodeStream s =
      if tokenLength (laneWord (s.take 8)) < 8 then decTok (laneWord (s.take 8))
      else decTok (laneWord (s.take 8)) ++ decodeStream (s.drop 8) := by
  by_cases h : tokenLength (laneWord (s.take 8)) < 8
  · simp [decodeStream, decodeTokens, Config.tokenChars, h]
  · have h8 : 8 ≤ s.length := by
      by_contra hc
      have hm := (leadingMembers_spec (lanes (laneWord (s.take 8)))).1 s.length (by unfold tokenLength at h; omega)
      rw [lanes_getD _ _ (by omega), lane_laneWord _ _ (by omega), List.getD_eq_default _ _ (by simp)] at hm
      simp at hm
    have hk : s.length / 8 = (s.length - 8) / 8 + 1 := by omega
    simp [decodeStream, decodeTokens, Config.tokenChars, h, hk]

end Sys2Proof.Machine
end

