-- ==== Sys2Proof/Laws/Flags.lean ====
section
/-! SUPPORT. The STATUS word: each field at its place, every reserved bit 0 (10_state.md R27, R34). -/

namespace Sys2Proof.Machine

/-- STATUS as one concatenation at its written width. -/
theorem statusWord_getLsbD (t : Status) (i : Nat) :
    t.word.getLsbD i = BitVec.getLsbD (w := 40 + 4 + 3 + 1 + 6 + 1 + 1 + 4 + 4)
      (0#40 ++ t.ecode ++ 0#3 ++ flagBit t.err ++ 0#6 ++ flagBit t.last ++ flagBit t.hit ++ t.tlen ++ t.len) i := rfl

@[simp] theorem flagBit_getElem_zero (b : Bool) : (flagBit b)[0] = b := by cases b <;> rfl

@[simp] theorem statusWord_len (t : Status) : t.word.extractLsb' 0 4 = t.len := by
  apply BitVec.eq_of_getLsbD_eq
  intro i hi
  rw [BitVec.getLsbD_extractLsb', statusWord_getLsbD]
  simp only [BitVec.getLsbD_append]
  interval_cases i <;> simp

@[simp] theorem statusWord_tlen (t : Status) : t.word.extractLsb' 4 4 = t.tlen := by
  apply BitVec.eq_of_getLsbD_eq
  intro i hi
  rw [BitVec.getLsbD_extractLsb', statusWord_getLsbD]
  simp only [BitVec.getLsbD_append]
  interval_cases i <;> simp

@[simp] theorem statusWord_hit (t : Status) : t.word.getLsbD 8 = t.hit := by
  rw [statusWord_getLsbD]
  simp only [BitVec.getLsbD_append]
  simp

@[simp] theorem statusWord_last (t : Status) : t.word.getLsbD 9 = t.last := by
  rw [statusWord_getLsbD]
  simp only [BitVec.getLsbD_append]
  simp

@[simp] theorem statusWord_err (t : Status) : t.word.getLsbD 16 = t.err := by
  rw [statusWord_getLsbD]
  simp only [BitVec.getLsbD_append]
  simp

@[simp] theorem statusWord_ecode (t : Status) : t.word.extractLsb' 20 4 = t.ecode := by
  apply BitVec.eq_of_getLsbD_eq
  intro i hi
  rw [BitVec.getLsbD_extractLsb', statusWord_getLsbD]
  simp only [BitVec.getLsbD_append]
  interval_cases i <;> simp

/-- The result half of STATUS, bits 15 to 0, as one value. -/
theorem statusWord_low (t : Status) :
    t.word.extractLsb' 0 16 = (0#6 ++ flagBit t.last ++ flagBit t.hit ++ t.tlen ++ t.len : BitVec (6 + 1 + 1 + 4 + 4)) := by
  apply BitVec.eq_of_getLsbD_eq
  intro i hi
  rw [BitVec.getLsbD_extractLsb', statusWord_getLsbD]
  simp only [BitVec.getLsbD_append]
  interval_cases i <;> simp

end Sys2Proof.Machine
end

