-- ==== Sys2Proof/Laws/HostMem.lean ====
section
/-! SUPPORT. The host's memory: read after write, and that a write keeps the canonical form. -/

namespace Sys2Proof.Machine

/-- A write succeeds exactly where memory is mapped. -/
theorem HostMem.write_isSome (m : HostMem) (a : Nat) (v : Byte) :
    (m.write a v).isSome = (m.read a).isSome := by
  induction m with
  | nil => rfl
  | cons x rest ih =>
    obtain ⟨b, w⟩ := x
    simp only [HostMem.write, HostMem.read]
    split
    · rfl
    · rw [← ih]; cases HostMem.write rest a v <;> rfl

/-- A byte written reads back, and every other address reads as before. -/
theorem HostMem.read_write {m m' : HostMem} {a : Nat} {v : Byte} (h : m.write a v = some m') (b : Nat) :
    m'.read b = if b = a then some v else m.read b := by
  induction m generalizing m' with
  | nil => simp [HostMem.write] at h
  | cons x rest ih =>
    obtain ⟨c, w⟩ := x
    simp only [HostMem.write] at h
    split at h
    · next hc =>
      obtain rfl : _ = m' := by simpa using h
      subst hc
      by_cases hb : b = c
      · subst hb; simp [HostMem.read]
      · simp [HostMem.read, hb, Ne.symm hb]
    · next hc =>
      cases hr : HostMem.write rest a v with
      | none => simp [hr] at h
      | some r' =>
        obtain rfl : _ = m' := by simpa [hr] using h
        by_cases hb : c = b
        · subst hb; simp [HostMem.read, hc]
        · simp [HostMem.read, hb, ih hr]

/-- A write keeps the list of mapped addresses. -/
theorem HostMem.write_addresses {m m' : HostMem} {a : Nat} {v : Byte} (h : m.write a v = some m') :
    m'.map Prod.fst = m.map Prod.fst := by
  induction m generalizing m' with
  | nil => simp [HostMem.write] at h
  | cons x rest ih =>
    obtain ⟨c, w⟩ := x
    simp only [HostMem.write] at h
    split at h
    · obtain rfl : _ = m' := by simpa using h
      rfl
    · cases hr : HostMem.write rest a v with
      | none => simp [hr] at h
      | some r' =>
        obtain rfl : _ = m' := by simpa [hr] using h
        simp [ih hr]

/-- A mapped address is listed. -/
theorem HostMem.mem_of_read (m : HostMem) (a : Nat) (h : (m.read a).isSome = true) : a ∈ m.map Prod.fst := by
  induction m with
  | nil => simp [HostMem.read] at h
  | cons x rest ih =>
    obtain ⟨b, v⟩ := x
    by_cases hb : b = a
    · simp [hb]
    · exact List.mem_cons_of_mem _ (ih (by simpa [HostMem.read, hb] using h))

/-- The canonical form is one of the addresses alone. -/
theorem HostMem.wf_iff (m : HostMem) : m.wf ↔ (m.map Prod.fst).Pairwise (· < ·) := by
  rw [List.pairwise_map]

/-- A write keeps the canonical form. -/
theorem HostMem.write_wf {m m' : HostMem} {a : Nat} {v : Byte} (h : m.write a v = some m') (hm : m.wf) : m'.wf := by
  rw [HostMem.wf_iff] at hm ⊢
  rwa [HostMem.write_addresses h]

/-- Unmapping keeps the canonical form. -/
theorem HostMem.wf_unmap {m : HostMem} (h : m.wf) (a n : Nat) : (m.unmap a n).wf := List.Pairwise.filter _ h

/-- An unmapped byte reads as absent, and every other address reads as before. -/
theorem HostMem.read_unmap (m : HostMem) (a n x : Nat) :
    (m.unmap a n).read x = if x < a ∨ a + n ≤ x then m.read x else none := by
  induction m with
  | nil => simp [HostMem.unmap, HostMem.read]
  | cons c rest ih =>
    obtain ⟨b, v⟩ := c
    simp only [HostMem.unmap, List.filter_cons] at ih ⊢
    split <;> rename_i hb <;> simp only [HostMem.read, Bool.or_eq_true, decide_eq_true_eq] at hb ⊢
    · by_cases hx : b = x
      · subst hx; simp [hb]
      · simp [hx, ih]
    · by_cases hx : b = x
      · subst hx; rw [ih, if_neg hb, if_neg hb]
      · rw [ih, if_neg hx]

end Sys2Proof.Machine
end

