-- ==== Sys2Proof/Laws/Host.lean ====
section
/-! SUPPORT. What each shared operation of the host procedures does: a host access, a sequence of bytes read or stored, a token
read from memory. -/

namespace Sys2Proof.Machine

/-- The state in which the host has just issued an access of a register is about to do it. -/
theorem aboutTo_issued (s : State) (r : Reg) (w : Option Word) (h : s.resetAsserted = false) :
    State.AboutTo { s with pending := .access ⟨s.codecBase + r.offset, Config.accessBits, w⟩ :: s.pending } r w s.pending :=
  ⟨h, s.codecBase + r.offset, Nat.le_refl _, Nat.lt_add_of_pos_right (by decide), rfl⟩

/-- A host read answers the register and changes none. -/
theorem hostRead_eq (r : Reg) (s : State) (h : s.resetAsserted = false) :
    hostRead r s = .ok ({ s with returned := some (readReg r s) }, readReg r s) := by
  have hs := step_read (aboutTo_issued s r none h)
  have hr : readReg r { s with pending := .access ⟨s.codecBase + r.offset, Config.accessBits, none⟩ :: s.pending } =
      readReg r s := by
    cases r <;> rfl
  rw [hr] at hs
  simp only [hostRead, hostAccess, readAccess, hs]
  rfl

/-- A host write of a register is its own effect on the state. -/
theorem hostWrite_eq (r : Reg) (v : Word) (s t : State) (h : s.resetAsserted = false)
    (hw : writeReg r v { s with returned := none } = .next t) : hostWrite r v s = .ok t := by
  have hs := step_write (aboutTo_issued s r (some v) h)
  simp only [hostWrite, hostAccess, writeAccess, hs, hw]

/-- The bytes that memory holds are read back. -/
theorem readBytes_of_holds (m : HostMem) (a : Nat) (bs : List Byte) (h : m.holds a bs) :
    readBytes m a bs.length = .ok bs := by
  induction bs generalizing a with
  | nil => rfl
  | cons b bs ih =>
    have h0 : m.read a = some b := by simpa using h 0 (by simp)
    have ht : m.holds (a + 1) bs := fun k hk => by
      have := h (k + 1) (by simpa using hk)
      simpa [Nat.add_assoc, Nat.add_comm 1 k] using this
    simp only [List.length_cons, readBytes, memRead, h0, ih (a + 1) ht]
    rfl

/-- Where there is room, a byte sequence is stored: its addresses read back its bytes, every other address as before. -/
theorem writeBytes_of_room (m : HostMem) (a : Nat) (bs : List Byte) (h : m.room a bs.length) :
    ∃ m', writeBytes m a bs = .ok m' ∧
      ∀ x, m'.read x = if a ≤ x ∧ x < a + bs.length then bs[x - a]? else m.read x := by
  induction bs generalizing m a with
  | nil => exact ⟨m, rfl, fun x => by simp⟩
  | cons b bs ih =>
    have h0 : (m.write a b).isSome = true := by
      rw [HostMem.write_isSome]; simpa using h 0 (by simp)
    obtain ⟨m₁, h₁⟩ := Option.isSome_iff_exists.1 h0
    have hr := HostMem.read_write h₁
    obtain ⟨m', hm', hx⟩ := ih m₁ (a + 1) fun k hk => by
      rw [hr]
      split
      · rfl
      · have := h (k + 1) (by simpa using hk)
        simpa [Nat.add_assoc, Nat.add_comm 1 k] using this
    refine ⟨m', ?_, fun x => ?_⟩
    · simp only [writeBytes, memWrite, h₁]
      exact hm'
    · rw [hx, hr]
      rcases Nat.lt_trichotomy x a with hlt | rfl | hgt
      · rw [if_neg (by omega), if_neg (by omega), if_neg (by omega)]
      · rw [if_neg (by omega), if_pos rfl, if_pos (by simp)]
        simp
      · obtain ⟨k, rfl⟩ : ∃ k, x = a + 1 + k := ⟨x - a - 1, by omega⟩
        have e : a + 1 + k - a = k + 1 := by omega
        by_cases hk : k < bs.length
        · rw [if_pos (by omega), if_pos (by simp only [List.length_cons]; omega), e]
          simp
        · rw [if_neg (by omega), if_neg (by omega), if_neg (by simp only [List.length_cons]; omega)]

/-- A token read from a terminated string: the next `n` characters, the terminator last where it comes first (R159). -/
theorem readToken_of_holds (m : HostMem) (a n : Nat) (cs : List Byte) (hc : ∀ c ∈ cs, c ≠ 0x00)
    (h : m.holds a (cs ++ [0x00])) : readToken m a n = .ok ((cs ++ [0x00]).take n) := by
  induction n generalizing a cs with
  | zero => simp [readToken]
  | succ n ih =>
    cases cs with
    | nil =>
      have h0 : m.read a = some 0x00 := by simpa using h 0 (by simp)
      simp [readToken, memRead, h0, Config.terminator, bind, Except.bind]
    | cons c cs =>
      have h0 : m.read a = some c := by simpa using h 0 (by simp)
      have ht : m.holds (a + 1) (cs ++ [0x00]) := fun k hk => by
        have := h (k + 1) (by simpa using hk)
        simpa [Nat.add_assoc, Nat.add_comm 1 k] using this
      have hne : c ≠ 0x00 := hc c (by simp)
      simp only [readToken, memRead, h0, Config.terminator]
      show (if c = 0x00 then _ else _) = _
      rw [if_neg hne, ih (a + 1) cs (fun x hx => hc x (by simp [hx])) ht]
      rfl

/-- Distinct mapped addresses are listed: a string held in memory is no longer than memory. -/
theorem length_le_of_holds (m : HostMem) (a : Nat) (bs : List Byte) (h : m.holds a bs) : bs.length ≤ m.length := by
  have hm := HostMem.mem_of_read m
  have hsub : (List.range bs.length).map (a + ·) ⊆ m.map Prod.fst := by
    intro x hx
    obtain ⟨k, hk, rfl⟩ := List.mem_map.1 hx
    have hk' : k < bs.length := List.mem_range.1 hk
    exact hm _ (by rw [h k hk', List.getElem?_eq_getElem hk']; rfl)
  have hnd : ((List.range bs.length).map (a + ·)).Nodup :=
    List.Nodup.map (fun _ _ h => Nat.add_left_cancel h) List.nodup_range
  have := (List.subperm_of_subset hnd hsub).length_le
  simpa using this

end Sys2Proof.Machine
end

