-- ==== Sys2Proof/Laws/PerInstr.lean ====
section
/-! SUPPORT. The family Row: the encoding of every command, with whatever operand, lies in its row of the opcode map (R65). -/

namespace Sys2Proof.Laws.Row

/-- The command's word matches its row's mask and pattern, and the row is one of the map. -/
def Statement (i : Instr) : Prop :=
  encode i &&& i.row.mask = i.row.pattern ∧ i.row ∈ opcodeMap

theorem nop : Statement .nop := by unfold Statement; decide
theorem enc (n : BitVec 3) : Statement (.enc n) := by revert n; unfold Statement; decide
theorem dec : Statement .dec := by unfold Statement; decide
theorem lut (i : Byte) : Statement (.lut i) := by revert i; unfold Statement; decide
theorem rlut (c : Byte) : Statement (.rlut c) := by revert c; unfold Statement; decide
theorem clr : Statement .clr := by unfold Statement; decide

end Sys2Proof.Laws.Row
end

