-- ==== Sys2Proof/Tests/Slice0.lean ====
section
/-! SUPPORT. The model's own tests, and a named witness for the hypotheses of each obligation that has some. Expected values come
from spec/95_test_vectors.md and from the rules' own examples, never from the model. -/

namespace Sys2Proof.Tests

open Sys2Proof Sys2Proof.Machine

/-! ## Well-formedness (30_encoding.md R62, R63, R65) -/

theorem test_wf_accepts_every_form :
    Instr.nop.wf = true ∧ (Instr.enc 0).wf = true ∧ (Instr.enc 5).wf = true ∧ Instr.dec.wf = true ∧
    (Instr.lut 0).wf = true ∧ (Instr.lut 35).wf = true ∧ (Instr.rlut 0x00).wf = true ∧ (Instr.rlut 0xFF).wf = true ∧
    Instr.clr.wf = true := by decide

theorem test_wf_refuses_bad_count : (Instr.enc 6).wf = false ∧ (Instr.enc 7).wf = false := by decide

theorem test_wf_refuses_bad_index : (Instr.lut 36).wf = false ∧ (Instr.lut 255).wf = false := by decide

/-! ## Decoding: words laid out bit by bit from format F1, ARG, then bit 7, then N, then OP (R60, R65) -/

theorem test_decode_nop : decode (0#48 ++ 0b00000000#8 ++ 0b0#1 ++ 0b000#3 ++ 0b0000#4) = .ok .nop := by decide

theorem test_decode_enc : decode (0#48 ++ 0b00000000#8 ++ 0b0#1 ++ 0b101#3 ++ 0b0001#4) = .ok (.enc 5) := by decide

theorem test_decode_dec : decode (0#48 ++ 0b00000000#8 ++ 0b0#1 ++ 0b000#3 ++ 0b0010#4) = .ok .dec := by decide

theorem test_decode_lut : decode (0#48 ++ 0b00011011#8 ++ 0b0#1 ++ 0b000#3 ++ 0b0011#4) = .ok (.lut 27) := by decide

theorem test_decode_rlut : decode (0#48 ++ 0b01000001#8 ++ 0b0#1 ++ 0b000#3 ++ 0b0100#4) = .ok (.rlut 0x41) := by decide

theorem test_decode_clr : decode (0#48 ++ 0b00000000#8 ++ 0b0#1 ++ 0b000#3 ++ 0b0101#4) = .ok .clr := by decide

/-- 95_test_vectors.md, section 2.6: the first cause wins. -/
theorem test_decode_illegal :
    decode 0x6 = .error .reservedOp ∧ decode 0xFFFFFFFFFFFFFFFF = .error .reservedOp ∧
    decode 0x80 = .error .reservedBits ∧ decode 0x8000000000000001 = .error .reservedBits ∧
    decode 0x10061 = .error .reservedBits ∧ decode 0x8002 = .error .unusedField ∧ decode 0x105 = .error .unusedField ∧
    decode 0x2473 = .error .unusedField ∧ decode 0x71 = .error .badCount ∧ decode 0x2403 = .error .badIndex := by decide

theorem test_decodeTableWord : decodeTableWord 8 0x11 = some (.enc 1) ∧ decodeTableWord 16 0x2303 = some (.lut 35) ∧
    decodeTableWord 8 0x61 = none := by decide

/-! ## Single steps -/

/-- A state with register contents, a base address of 0x1000, and these events pending. -/
def blockAt (din dout : Word) (t : Status) (es : List HostEvent) : State :=
  { State.reset with din := din, dout := dout, status := t, codecBase := 0x1000, pending := es }

/-- A 64-bit access `skew` bytes into a register's slot. -/
def accessAt (r : Reg) (w : Option Word) (skew : Nat) : HostEvent :=
  .access { address := 0x1000 + r.offset + skew, bits := 64, write := w }

/-- The host about to write the word `v` to CMD, ERR 0 and DIN `din`. -/
def writingCmd (din v : Word) : State := blockAt din 0 Status.zero [accessAt .cmd (some v) 0]

/-- DOUT, STATUS, DIN and the returned word after one step. -/
def after (s : State) : Option (Word × Word × Word × Option Word) :=
  match step s with
  | .next t => some (t.dout, t.status.word, t.din, t.returned)
  | _ => none

/-- The refusal of a step. -/
def refusal (s : State) : Option Refusal :=
  match step s with
  | .refused r => some r
  | _ => none

/-- STATUS 0x221, the state that `dect "ku"` leaves (95_test_vectors.md, section 2.6). -/
def status221 : Status := { len := 1, tlen := 2, hit := false, last := true, err := false, ecode := 0 }

/-- STATUS 0x410101. -/
def status410101 : Status := { len := 1, tlen := 0, hit := true, last := false, err := true, ecode := 4 }

theorem test_status_words : status221.word = 0x221 ∧ status410101.word = 0x410101 := by decide

/-- Section 2.5, first row. -/
theorem test_nop : after (blockAt 0x756B 0x55 status221 [accessAt .cmd (some 0x0) 0]) = some (0x55, 0x221, 0x756B, none) := by
  decide

/-- Section 2.5, second row: DIN stays. -/
theorem test_clr : after (blockAt 0x756B 0x55 status221 [accessAt .cmd (some 0x5) 0]) = some (0, 0, 0x756B, none) := by decide

theorem test_clr_clears_error :
    after (blockAt 0 0x39 status410101 [accessAt .cmd (some 0x5) 0]) = some (0, 0, 0, none) := by decide

/-- R80's example. -/
theorem test_lut : after (writingCmd 0 0x1B03) = some (0x31, 0x101, 0, none) := by decide

/-- Section 3, P3 step 3: a legal command runs while ERR = 1. -/
theorem test_lut_under_error :
    after (blockAt 0 0 { Status.zero with err := true, ecode := 4 } [accessAt .cmd (some 0x2303) 0]) =
      some (0x39, 0x410101, 0, none) := by decide

/-- R81's examples. -/
theorem test_rlut_hit : after (writingCmd 0 0x3504) = some (0x1F, 0x101, 0, none) := by decide

theorem test_rlut_miss : after (writingCmd 0 0x4104) = some (0, 0, 0, none) := by decide

/-- Section 2.3: DE AD BE EF, stale lanes above. -/
theorem test_enc_tail : after (writingCmd 0xFFFFFFFFEFBEADDE 0x41) = some (0x79313331773031, 0x207, 0xFFFFFFFFEFBEADDE, none) := by
  decide

/-- Section 2.3: "hello". -/
theorem test_enc_full : after (writingCmd 0x6F6C6C6568 0x51) = some (0x706431797773626E, 0x8, 0x6F6C6C6568, none) := by decide

/-- Section 2.4: "abcdefgh". -/
theorem test_dec_full : after (writingCmd 0x6867666564636261 0x2) = some (0xC714324400, 0x85, 0x6867666564636261, none) := by
  decide

/-- Section 2.4: "ab!cdefg" stops at the non-member. -/
theorem test_dec_stops : after (writingCmd 0x6766656463216261 0x2) = some (0, 0x221, 0x6766656463216261, none) := by decide

/-- Section 2.6: an illegal CLR clears nothing. -/
theorem test_illegal_word :
    after (blockAt 0x756B 0x55 status221 [accessAt .cmd (some 0x105) 0]) = some (0x55, 0x310221, 0x756B, none) := by decide

/-- Section 2.6, stickiness: the first code is kept. -/
theorem test_illegal_word_is_sticky :
    after (blockAt 0 0x39 status410101 [accessAt .cmd (some 0xF) 0]) = some (0x39, 0x410101, 0, none) := by decide

/-- A read anywhere in the slot returns the whole register (20_memory.md R42, R44). -/
theorem test_read_status : after (blockAt 7 0x39 status410101 [accessAt .status none 5]) = some (0x39, 0x410101, 7, some 0x410101) := by
  decide

/-- V9: outside the window, and 32 bits wide. -/
theorem test_refusals :
    refusal (blockAt 0 0 Status.zero [.access { address := 0x0FFF, bits := 64, write := none }]) = some .accessOutsideWindow ∧
    refusal (blockAt 0 0 Status.zero [.access { address := 0x1020, bits := 64, write := some 0x5 }]) = some .accessOutsideWindow ∧
    refusal (blockAt 0 0 Status.zero [.access { address := 0x1000, bits := 32, write := some 0x5 }]) = some .accessNot64Bits := by
  decide

/-- R190: an access made while reset is asserted has no effect and returns 0. -/
theorem test_access_under_reset :
    after { blockAt 0 0 Status.zero [accessAt .din none 0] with resetAsserted := true } = some (0, 0, 0, some 0) ∧
    after { blockAt 0 0 Status.zero [accessAt .din (some 7) 0] with resetAsserted := true } = some (0, 0, 0, none) := by decide

theorem test_withFetchWord : after (State.reset.withFetchWord 16 0x2303) = some (0x39, 0x101, 0, none) := by decide

/-! ## Streams and the host procedures (section 2.7, scenarios S1, S2 and S5) -/

theorem test_encode_seven_bytes :
    encodeStream [0x00, 0x01, 0x02, 0x03, 0x04, 0x05, 0x06] =
      [0x61, 0x61, 0x61, 0x71, 0x65, 0x61, 0x79, 0x65, 0x61, 0x75, 0x64, 0x61] := by decide

theorem test_decode_twelve_characters :
    decodeStream [0x61, 0x61, 0x61, 0x71, 0x65, 0x61, 0x79, 0x65, 0x61, 0x75, 0x64, 0x61, 0x00] =
      [0x00, 0x01, 0x02, 0x03, 0x04, 0x05, 0x06] := by decide

/-- Host memory with the byte 0xFF at 0x100, the string "52" at 0x110 and three bytes of room at 0x200. -/
def hostMemory : HostMem :=
  [(0x100, 0xFF), (0x110, 0x35), (0x111, 0x32), (0x112, 0x00), (0x200, 0xAA), (0x201, 0xAA), (0x202, 0xAA)]

/-- A host run from the state after reset. -/
def hostRun : HostRun := { mem := hostMemory, block := State.reset, commands := 0 }

/-- What a host procedure answers, how many commands it issued, and the host's bytes at 0x200. -/
def hostAnswer (r : Except HostStop (HostRun × Nat)) : Option (Nat × Nat × List (Option Byte)) :=
  match r with
  | .ok (h, n) => some (n, h.commands, [h.mem.read 0x200, h.mem.read 0x201, h.mem.read 0x202])
  | .error _ => none

theorem test_hostEncode : hostAnswer (hostEncode 0x100 1 0x200 hostRun) = some (2, 1, [some 0x35, some 0x32, some 0x00]) := by
  decide

theorem test_hostDecode : hostAnswer (hostDecode 0x110 0x200 hostRun) = some (1, 1, [some 0xFF, some 0x00, some 0xAA]) := by decide

theorem test_host_empty :
    hostAnswer (hostEncode 0x100 0 0x200 hostRun) = some (0, 0, [some 0x00, some 0xAA, some 0xAA]) ∧
    hostAnswer (hostDecode 0x112 0x200 hostRun) = some (0, 1, [some 0x00, some 0xAA, some 0xAA]) := by decide

/-- R73's expansions: 95_test_vectors.md P1 step 1, `dect "52"`, and P2 step 5. -/
theorem test_pseudo_instructions :
    HostStmt.accesses 0 (.encg [0, 1, 2, 3, 4]) = some [writeAccess 0 .din 0x0403020100, writeAccess 0 .cmd 0x51] ∧
    HostStmt.accesses 0 (.dect [0x35, 0x32]) = some [writeAccess 0 .din 0x3235, writeAccess 0 .cmd 0x2] ∧
    HostStmt.accesses 0 (.ldin [0x61, 0x75, 0x64, 0x61]) = some [writeAccess 0 .din 0x61647561] ∧
    HostStmt.accesses 0 (.enc 6) = none ∧ HostStmt.accesses 0 (.lut 36) = none := by decide

/-! ## Witnesses: concrete inputs that meet the hypotheses of the obligations -/

/-- The host about to access register `r`, `skew` bytes into its slot, and nothing after it. -/
def about (r : Reg) (w : Option Word) (skew : Nat) : State := blockAt 0x3235 0x61 status221 [accessAt r w skew]

theorem about_meets (r : Reg) (w : Option Word) (skew : Nat) (h : skew < 8) : (about r w skew).AboutTo r w [] :=
  ⟨rfl, 0x1000 + r.offset + skew, by simp [about, blockAt], by simp [about, blockAt]; omega, rfl⟩

theorem witness_DecodeOfEncodeIsTheCommand : (Instr.enc 5).wf = true ∧ (Instr.lut 35).wf = true := by decide

theorem witness_EncodeOfDecodeIsTheWord : decode 0x51 = .ok (.enc 5) ∧ decode 0x2303 = .ok (.lut 35) := by decide

theorem witness_OpcodeMapSelectsTheCommand :
    0x6 ≤ ((0x6 : Word).extractLsb' 0 4).toNat ∧ 0x6 ≤ ((0xF : Word).extractLsb' 0 4).toNat := by decide

theorem witness_WrittenWordRunsOrRecordsItsFirstCause :
    (about .cmd (some 0x6) 0).AboutTo .cmd (some 0x6) [] ∧ (about .cmd (some 0x10061) 7).AboutTo .cmd (some 0x10061) [] ∧
    (about .cmd (some 0x2473) 0).AboutTo .cmd (some 0x2473) [] ∧ (about .cmd (some 0x61) 0).AboutTo .cmd (some 0x61) [] ∧
    (about .cmd (some 0x2403) 0).AboutTo .cmd (some 0x2403) [] ∧ (about .cmd (some 0x2303) 0).AboutTo .cmd (some 0x2303) [] :=
  ⟨about_meets _ _ _ (by decide), about_meets _ _ _ (by decide), about_meets _ _ _ (by decide),
    about_meets _ _ _ (by decide), about_meets _ _ _ (by decide), about_meets _ _ _ (by decide)⟩

/-- The five conditions of R67, each at the edge of its range, and a word that meets none of them. -/
theorem witness_WrittenWord_conditions :
    (6 ≤ (0x6 : Word).toNat % 16 ∧ 6 ≤ (0xF : Word).toNat % 16) ∧
    (¬ 6 ≤ (0x10061 : Word).toNat % 16 ∧ (0x10061 : Word).toNat / 65536 ≠ 0) ∧
    (¬ 6 ≤ (0x80 : Word).toNat % 16 ∧ (0x80 : Word).toNat / 128 % 2 ≠ 0) ∧
    ((0x2473 : Word).toNat / 65536 = 0 ∧ (0x2473 : Word).toNat / 128 % 2 = 0 ∧ (0x2473 : Word).toNat / 16 % 8 ≠ 0 ∧
      (0x2473 : Word).toNat % 16 ≠ 1) ∧
    ((0x8002 : Word).toNat / 65536 = 0 ∧ (0x8002 : Word).toNat / 128 % 2 = 0 ∧ (0x8002 : Word).toNat / 256 % 256 ≠ 0 ∧
      (0x8002 : Word).toNat % 16 = 2) ∧
    ((0x61 : Word).toNat % 16 = 1 ∧ 6 ≤ (0x61 : Word).toNat / 16 % 8 ∧ (0x61 : Word).toNat / 128 = 0) ∧
    ((0x2403 : Word).toNat % 16 = 3 ∧ 36 ≤ (0x2403 : Word).toNat / 256 % 256 ∧ (0x2403 : Word).toNat / 65536 = 0 ∧
      (0x2403 : Word).toNat / 16 % 16 = 0) ∧
    ((0x2303 : Word).toNat % 16 = 3 ∧ (0x2303 : Word).toNat / 256 = 35 ∧ (0x2303 : Word).toNat / 16 % 16 = 0) := by decide

theorem witness_StepRunsTheDecodedCommand :
    ((about .cmd (some 0x51) 0).AboutTo .cmd (some 0x51) [] ∧ decode 0x51 = .ok (.enc 5)) ∧
    ((about .cmd (some 0x61) 7).AboutTo .cmd (some 0x61) [] ∧ decode 0x61 = .error .badCount) :=
  ⟨⟨about_meets _ _ _ (by decide), by decide⟩, ⟨about_meets _ _ _ (by decide), by decide⟩⟩

theorem witness_ReadsReturnTheRegister :
    (about .cmd none 0).AboutTo .cmd none [] ∧ (about .status none 7).AboutTo .status none [] ∧
    (about .din none 0).AboutTo .din none [] ∧ (about .dout none 7).AboutTo .dout none [] :=
  ⟨about_meets _ _ _ (by decide), about_meets _ _ _ (by decide), about_meets _ _ _ (by decide),
    about_meets _ _ _ (by decide)⟩

theorem witness_WritesReachOnlyWritableRegisters :
    (about .din (some 7) 7).AboutTo .din (some 7) [] ∧ (about .status (some 7) 0).AboutTo .status (some 7) [] ∧
    (about .dout (some 7) 7).AboutTo .dout (some 7) [] :=
  ⟨about_meets _ _ _ (by decide), about_meets _ _ _ (by decide), about_meets _ _ _ (by decide)⟩

/-- A 64-bit access pending, in the first and the last byte of every slot, and just outside the window. -/
theorem witness_OffsetBitsFourAndThreeSelect :
    ((about .cmd none 0).pending = .access { address := 0x1000, bits := 64, write := none } :: [] ∧
      (0x1000 - 0x1000) / 8 = 0 ∧ (0x1007 - 0x1000) / 8 = (0x1000 - 0x1000) / 8) ∧
    ((about .status none 0).pending = .access { address := 0x1008, bits := 64, write := none } :: [] ∧
      (0x1008 - 0x1000) / 8 = 1 ∧ (0x100F - 0x1000) / 8 = (0x1008 - 0x1000) / 8) ∧
    ((about .din none 0).pending = .access { address := 0x1010, bits := 64, write := none } :: [] ∧
      (0x1010 - 0x1000) / 8 = 2 ∧ (0x1017 - 0x1000) / 8 = (0x1010 - 0x1000) / 8) ∧
    ((about .dout none 7).pending = .access { address := 0x101F, bits := 64, write := none } :: [] ∧
      (0x101F - 0x1000) / 8 = 3 ∧ (0x1018 - 0x1000) / 8 = (0x101F - 0x1000) / 8) ∧
    (about .dout none 7).codecBase = 0x1000 ∧ (about .dout none 7).resetAsserted = false ∧ 0x101F < 0x1000 + 0x20 ∧
    ((about .dout none 8).pending = .access { address := 0x1020, bits := 64, write := none } :: [] ∧ 0x1000 + 0x20 ≤ 0x1020) ∧
    ((blockAt 0 0 Status.zero [.access { address := 0x0FFF, bits := 64, write := none }]).pending =
      .access { address := 0x0FFF, bits := 64, write := none } :: [] ∧ 0x0FFF < 0x1000) := by decide

theorem witness_OtherWidthsAreRefused :
    (blockAt 0 0 Status.zero [.access { address := 0x1000, bits := 32, write := none }]).pending =
      .access { address := 0x1000, bits := 32, write := none } :: [] ∧
    ({ address := 0x1000, bits := 32, write := none : Access }).bits ≠ 64 ∧
    ({ address := 0x1000, bits := 65, write := none : Access }).bits ≠ 64 := by decide

theorem witness_NothingStopsTheBlock :
    State.reset.pending = [] ∧ (about .cmd (some 0x61) 0).pending = accessAt .cmd (some 0x61) 0 :: [] ∧
    (accessAt .cmd (some 0x61) 0).carried (about .cmd (some 0x61) 0).codecBase ∧
    (accessAt .dout none 7).carried (about .dout none 7).codecBase ∧ HostEvent.assertReset.carried 0x1000 := by
  refine ⟨rfl, rfl, ?_, ?_, trivial⟩ <;> exact ⟨rfl, by decide, by decide⟩

/-- A state in which the word `v` is written to register `r` twice, in the first and the last byte of its slot, and both steps
answer. -/
def WrittenTwice (r : Reg) (v : Word) : Prop :=
  ∃ s t u, s.AboutTo r (some v) [accessAt r (some v) 7] ∧ step s = .next t ∧ t.AboutTo r (some v) [] ∧ step t = .next u

/-- CMD once with a legal and once with an illegal word. -/
theorem witness_SecondIdenticalWriteChangesNothing :
    WrittenTwice .cmd 0x51 ∧ WrittenTwice .cmd 0x61 ∧ WrittenTwice .status 7 ∧ WrittenTwice .din 7 ∧ WrittenTwice .dout 7 :=
  ⟨⟨blockAt 0 0 Status.zero [accessAt .cmd (some 0x51) 0, accessAt .cmd (some 0x51) 7], _, _,
      ⟨rfl, 0x1000, by decide, by decide, rfl⟩, rfl, ⟨rfl, 0x1007, by decide, by decide, rfl⟩, rfl⟩,
    ⟨blockAt 0 0 Status.zero [accessAt .cmd (some 0x61) 0, accessAt .cmd (some 0x61) 7], _, _,
      ⟨rfl, 0x1000, by decide, by decide, rfl⟩, rfl, ⟨rfl, 0x1007, by decide, by decide, rfl⟩, rfl⟩,
    ⟨blockAt 0 0 Status.zero [accessAt .status (some 7) 0, accessAt .status (some 7) 7], _, _,
      ⟨rfl, 0x1008, by decide, by decide, rfl⟩, rfl, ⟨rfl, 0x100F, by decide, by decide, rfl⟩, rfl⟩,
    ⟨blockAt 0 0 Status.zero [accessAt .din (some 7) 0, accessAt .din (some 7) 7], _, _,
      ⟨rfl, 0x1010, by decide, by decide, rfl⟩, rfl, ⟨rfl, 0x1017, by decide, by decide, rfl⟩, rfl⟩,
    ⟨blockAt 0 0 Status.zero [accessAt .dout (some 7) 0, accessAt .dout (some 7) 7], _, _,
      ⟨rfl, 0x1018, by decide, by decide, rfl⟩, rfl, ⟨rfl, 0x101F, by decide, by decide, rfl⟩, rfl⟩⟩

theorem witness_ResetInputClearsAndBlocksAccesses :
    (blockAt 7 7 status221 [.assertReset]).pending = .assertReset :: [] ∧
    ((about .din none 0).pending = accessAt .din none 0 :: [] ∧ (accessAt .din none 0).carried 0x1000 ∧
      ({ about .din none 0 with resetAsserted := true }).resetAsserted = true) :=
  ⟨rfl, rfl, ⟨rfl, by decide, by decide⟩, rfl⟩

theorem witness_IdleKeepsStateAndPowerRestoredResets :
    State.reset.pending = [] ∧ (blockAt 7 7 status221 [.releaseReset]).pending = .releaseReset :: [] ∧
    (blockAt 7 7 status221 [.powerRestored]).pending = .powerRestored :: [] := by decide

theorem witness_NopHasNoEffect :
    ((0x80 : Word).extractLsb' 0 4 = 0x0 ∧ (0x80 : Word) ≠ 0 ∧ (0x80 : Word).getLsbD 7 = true) ∧
    ((0x10000 : Word).extractLsb' 0 4 = 0x0 ∧ (0x10000 : Word).extractLsb' 16 48 ≠ 0) ∧
    ((0x10 : Word).extractLsb' 0 4 = 0x0 ∧ (0x10 : Word) ≠ 0 ∧ (0x10 : Word).extractLsb' 16 48 = 0 ∧
      (0x10 : Word).getLsbD 7 = false) := by decide

theorem witness_ClrClearsDoutAndStatus :
    ((0x85 : Word).extractLsb' 0 4 = 0x5 ∧ (0x85 : Word) ≠ 0x5 ∧ (0x85 : Word).getLsbD 7 = true) ∧
    ((0x105 : Word).extractLsb' 0 4 = 0x5 ∧ (0x105 : Word) ≠ 0x5 ∧ (0x105 : Word).extractLsb' 16 48 = 0 ∧
      (0x105 : Word).getLsbD 7 = false) ∧
    (about .cmd (some 0x105) 0).AboutTo .cmd (some 0x105) [] :=
  ⟨by decide, by decide, about_meets _ _ _ (by decide)⟩

theorem witness_RomEntriesAreDistinct : isMember 0x61 = true ∧ isMember 0x39 = true := by decide

theorem witness_LutReturnsTheCharacter :
    (0 : Byte).toNat < 36 ∧ (25 : Byte).toNat < 26 ∧ ¬ (26 : Byte).toNat < 26 ∧ (35 : Byte).toNat < 36 ∧
    36 ≤ (36 : Byte).toNat ∧ 36 ≤ (255 : Byte).toNat := by decide

theorem witness_ReverseLookupFindsTheEntry :
    (rev 0x61 = some 0 ∧ rev 0x39 = some 35) ∧ isMember 0x2F = false ∧ isMember 0x7B = false := by decide

theorem witness_MatchingIsExact :
    (0x41 ≤ (0x41 : Byte).toNat ∧ (0x5A : Byte).toNat ≤ 0x5A) ∧ 0x80 ≤ (0x80 : Byte).toNat ∧ (0x00 : Byte).toNat < 0x20 ∧
    (0x1F : Byte).toNat < 0x20 ∧ (0x7F : Byte).toNat = 0x7F := by decide

theorem witness_TokenWidths : (1 ≤ 1 ∧ 1 ≤ 5) ∧ (1 ≤ 5 ∧ 5 ≤ 5) := by decide

theorem witness_EncFollowsShiftsAndMasks :
    (0 : BitVec 3).toNat ≤ 5 ∧ (5 : BitVec 3).toNat ≤ 5 ∧ 6 ≤ (6 : BitVec 3).toNat ∧ 6 ≤ (7 : BitVec 3).toNat := by decide

theorem witness_EncStatus : (0 : BitVec 3).toNat ≤ 5 ∧ (5 : BitVec 3).toNat ≤ 5 := by decide

theorem witness_EncOutputLanes :
    ((1 : BitVec 3).toNat ≤ 5 ∧ 1 < tokenWidth 1 ∧ tokenWidth 1 ≤ 2) ∧ (5 : BitVec 3).toNat = 5 ∧ (0 : BitVec 3).toNat = 0 := by
  decide

theorem witness_GroupValueIsMostSignificantFirst : 0 ≤ 5 ∧ 5 ≤ 5 ∧ 7 < 8 := by decide

theorem witness_EncIgnoresLanesPastTheCount :
    (1 : BitVec 3).toNat ≤ 5 ∧ (∀ k < (1 : BitVec 3).toNat, lane 0xFFFFFFFFFFFFFFFF k = lane (writingCmd 0xFF 0x11).din k) ∧
    (0 : BitVec 3).toNat ≤ 5 ∧ (5 : BitVec 3).toNat ≤ 5 := by decide

theorem witness_EncEmitsReachableEntriesOnly : (5 : BitVec 3).toNat ≤ 5 ∧ 7 < tokenWidth (5 : BitVec 3).toNat := by decide

theorem witness_TailPaddingBitsAreZero :
    (1 ≤ 1 ∧ 1 ≤ 4 ∧ 0 < tokenWidth 1 ∧ 0 + 1 < tokenWidth 1) ∧ (1 ≤ 4 ∧ 4 ≤ 4 ∧ 6 < tokenWidth 4) := by decide

theorem witness_TokenLengthIsTheFirstNonMember :
    tokenLength 0x4847464544434241 = 0 ∧ 1 < tokenLength 0x3235 ∧ tokenLength 0x3235 < 8 ∧
    tokenLength 0x3939393939393939 = 8 := by decide

theorem witness_ByteCounts : 0 ≤ 8 ∧ 8 ≤ 8 := by decide

theorem witness_DecOutputLanes :
    0 < byteCount (tokenLength 0x3235) ∧ byteCount (tokenLength 0x3235) ≤ 1 ∧
    4 < byteCount (tokenLength 0x6867666564636261) := by decide

theorem witness_DecIgnoresLanesPastTheFirstNonMember :
    ∀ k < 8, k ≤ tokenLength (writingCmd 0x3235 0x2).din → lane 0xFF0000003235 k = lane (writingCmd 0x3235 0x2).din k := by decide

theorem witness_UnreachableMembersDecodeLikeTheFirstFour :
    ∀ k < 8, lane 0x6464646464646464 k = aliasOf (lane (writingCmd 0x3939393939393939 0x2).din k) := by decide

theorem witness_DecInvertsEnc : (0 : BitVec 3).toNat ≤ 5 ∧ (5 : BitVec 3).toNat ≤ 5 ∧ 4 < (5 : BitVec 3).toNat := by decide

theorem witness_CommandsFrame :
    (∃ t, exec (.enc 5) State.reset = .next t) ∧ (Instr.enc 5).wf = true ∧ Instr.enc 5 ≠ .clr ∧
    (∃ t, exec (.lut 36) State.reset = .next t) ∧ (Instr.lut 36).wf = false :=
  ⟨⟨_, rfl⟩, by decide, by decide, ⟨_, rfl⟩, by decide⟩

theorem witness_ErrorStateIsStickyAndInert :
    ((blockAt 0 0x39 status410101 [accessAt .cmd (some 0xF) 0]).AboutTo .cmd (some 0xF) [] ∧
      decode 0xF = .error .reservedOp ∧ (blockAt 0 0x39 status410101 [accessAt .cmd (some 0xF) 0]).status.err = true) ∧
    (Instr.dec.wf = true ∧ ∃ t, exec .dec State.reset = .next t) ∧ (Instr.clr.wf = true ∧ ∃ t, exec .clr State.reset = .next t) :=
  ⟨⟨⟨rfl, 0x1000, by decide, by decide, rfl⟩, by decide, rfl⟩, ⟨rfl, _, rfl⟩, ⟨rfl, _, rfl⟩⟩

/-- Two blocks with one DIN and different DOUT and STATUS. -/
theorem witness_ResultDependsOnWordAndDinOnly :
    (about .cmd (some 0x2) 0).din = (blockAt 0x3235 0x39 status410101 [accessAt .cmd (some 0x2) 0]).din ∧
    (about .cmd (some 0x2) 0).AboutTo .cmd (some 0x2) [] ∧
    (blockAt 0x3235 0x39 status410101 [accessAt .cmd (some 0x2) 0]).AboutTo .cmd (some 0x2) [] ∧
    decode 0x2 = .ok .dec ∧ Instr.dec ≠ .nop :=
  ⟨rfl, about_meets _ _ _ (by decide), ⟨rfl, 0x1000, by decide, by decide, rfl⟩, by decide, by decide⟩

/-- DIN changed by a host write, and by reset. -/
theorem witness_OnlyAHostWriteChangesDin :
    (∃ t, step (about .din (some 7) 0) = .next t ∧ t.din ≠ (about .din (some 7) 0).din) ∧
    (∃ t, step (blockAt 7 0 Status.zero [.assertReset]) = .next t ∧ t.din ≠ 7) :=
  ⟨⟨_, rfl, by decide⟩, ⟨_, rfl, by decide⟩⟩

/-- DOUT changed by a command, and by the return of power. -/
theorem witness_OnlyAResultCommandChangesDout :
    (∃ t, step (about .cmd (some 0x5) 0) = .next t ∧ t.dout ≠ (about .cmd (some 0x5) 0).dout) ∧
    (∃ t, step (blockAt 0 7 Status.zero [.powerRestored]) = .next t ∧ t.dout ≠ 7) :=
  ⟨⟨_, rfl, by decide⟩, ⟨_, rfl, by decide⟩⟩

theorem witness_ErrIsSetByIllegalAndClearedByClrOrReset :
    (∃ t, step (blockAt 0 0x39 status410101 [accessAt .cmd (some 0x5) 0]) = .next t ∧ status410101.err = true ∧
      t.status.err = false) ∧
    (∃ t, step (blockAt 0 0x39 status410101 [.assertReset]) = .next t ∧ t.status.err = false) ∧
    (∃ t, step (about .cmd (some 0x61) 0) = .next t ∧ (about .cmd (some 0x61) 0).status.err = false ∧ t.status.err = true) :=
  ⟨⟨_, rfl, rfl, rfl⟩, ⟨_, rfl, rfl⟩, ⟨_, rfl, rfl, rfl⟩⟩

/-- A state other than reset that has the invariant, with a step from it. -/
theorem witness_InvariantIsKept :
    (blockAt 0 0x39 status410101 [accessAt .cmd (some 0x61) 0]).Inv ∧
    ∃ t, step (blockAt 0 0x39 status410101 [accessAt .cmd (some 0x61) 0]) = .next t :=
  ⟨by decide, _, rfl⟩

theorem witness_StreamAlphabetIsClosed : 0x35 ∈ encodeStream [0xFF] := by decide

theorem witness_DecodedLengthFormula :
    leadingMembers [0x61, 0x62, 0x21, 0x63] = 2 ∧ leadingMembers [0x61, 0x62, 0x21, 0x63] < [0x61, 0x62, 0x21, 0x63].length ∧
    leadingMembers [0x00] < [0x00].length := by decide

theorem witness_DecodingStopsAtTheFirstNonMember : (∀ x ∈ [(0x61 : Byte), 0x39], isMember x = true) ∧ isMember 0x21 = false := by
  decide

/-- The first and the last lane. -/
theorem witness_HostStatementsStandForTheirAccesses : 0 < 8 ∧ 7 < 8 := by decide

/-- The empty string, a string with a non-member before its terminator, and a string of members. -/
theorem witness_CapacitiesSuffice :
    (∀ c ∈ ([] : List Byte), c ≠ 0x00) ∧
    ((∀ c ∈ [(0x61 : Byte), 0x21, 0x62], c ≠ 0x00) ∧ leadingMembers [0x61, 0x21, 0x62] = 1) ∧
    (∀ c ∈ [(0x35 : Byte), 0x32], isMember c = true) := by decide

/-- One byte to encode at 0x100 and room for "52" and its terminator at 0x200. -/
theorem witness_HostEncodeComputesEncode :
    hostRun.block.resetAsserted = false ∧ hostRun.mem.holds 0x100 [0xFF] ∧
    hostRun.mem.room 0x200 ((encodeStream [0xFF]).length + 1) ∧
    (∀ j < [(0xFF : Byte)].length, ∀ k < (encodeStream [0xFF]).length + 1, 0x100 + j ≠ 0x200 + k) := by decide

/-- The string "52" at 0x110 and room for its byte and the terminator at 0x200. -/
theorem witness_HostDecodeComputesDecode :
    hostRun.block.resetAsserted = false ∧ (∀ c ∈ [(0x35 : Byte), 0x32], c ≠ 0x00) ∧
    hostRun.mem.holds 0x110 ([0x35, 0x32] ++ [0x00]) ∧
    hostRun.mem.room 0x200 ((decodeStream ([0x35, 0x32] ++ [0x00])).length + 1) ∧
    (∀ j < [(0x35 : Byte), 0x32].length + 1, ∀ k < (decodeStream ([0x35, 0x32] ++ [0x00])).length + 1,
      0x110 + j ≠ 0x200 + k) := by decide

/-- A buffer that does not exist yet, one that is a byte too small for the data, and one that is too small for the string. -/
theorem witness_AllocationFailureReleasesTheBuffer :
    ({ address := none, capacity := 0 : HostBuffer }).address = none ∧
    ({ address := some 0x200, capacity := 5 : HostBuffer }).capacity < encodeCapacity 1 ∧
    ((∀ c ∈ [(0x35 : Byte), 0x32], c ≠ 0x00) ∧ hostRun.mem.holds 0x110 ([0x35, 0x32] ++ [0x00]) ∧
      ({ address := some 0x200, capacity := 1 : HostBuffer }).capacity < decodeCapacity [(0x35 : Byte), 0x32].length) ∧
    (-1 : Int) < 0 := by decide

/-- A capacity that is just sufficient, and one that is a byte short. -/
theorem witness_SufficientBufferIsReused :
    (({ address := some 0x200, capacity := 6 : HostBuffer }).address = some 0x200 ∧ encodeCapacity 1 ≤ 6) ∧
    ({ address := some 0x200, capacity := 5 : HostBuffer }).capacity < encodeCapacity 1 := by decide

end Sys2Proof.Tests
end

section
/-! The register file: what a command writes and leaves (`exec_next_cases`, `exec_frame`), the rules about changes of DIN,
DOUT and ERR, the ROM's indices, and the invariant of the register file with its preservation by every step. -/

namespace Sys2Proof

/-! ### Legal words -/

/-- A legal word's command has its operand in range (R62, R63, R67). -/
theorem decode_wf {v : Word} {i : Instr} (h : decode v = .ok i) : i.wf = true := by
  obtain ⟨-, -, ⟨-, -, -, rfl⟩ | ⟨-, hn, -, rfl⟩ | ⟨-, -, -, rfl⟩ | ⟨-, -, ha, rfl⟩ | ⟨-, -, rfl⟩ | ⟨-, -, -, rfl⟩⟩ :=
    decode_cases h
  · rfl
  · exact decide_eq_true hn
  · rfl
  · exact decide_eq_true ha
  · rfl
  · rfl

/-- One word alone selects CLR (R65). -/
theorem eq_five_of_decode_clr {v : Word} (h : decode v = .ok .clr) : v = 0x5 := by
  obtain ⟨hh, h7, hop⟩ := decode_cases h
  have hf : opField v = 5 ∧ nField v = 0 ∧ argField v = 0 := by simpa using hop
  obtain ⟨ho, hn, ha⟩ := hf
  rw [word_eq_fields v, hh, h7, ho, hn, ha]
  rfl

end Sys2Proof

namespace Sys2Proof.Machine

/-! ### What a command writes -/

/-- The values a result command may write to DOUT, LEN, TLEN, HIT and LAST: HIT only with a lookup's fields (R80, R81), a
non-zero TLEN only with a DEC's (R127), and no lane of DOUT at or past LEN but 0 (R34). -/
structure ResultShape (d : Word) (l m : Nat) (hit last : Bool) : Prop where
  len_le : l ≤ 8
  tlen_le : m ≤ 8
  of_hit : hit = true → l = 1 ∧ m = 0 ∧ last = false
  of_tlen : m ≠ 0 → hit = false ∧ l = byteCount m ∧ last = decide (m < 8)
  lane_eq_zero : ∀ k < 8, l ≤ k → lane d k = 0x00

theorem lane_setWidth_eq_zero {w : Nat} (x : BitVec w) (hw : w ≤ 8) (k : Nat) (hk : 1 ≤ k) :
    lane (x.setWidth 64) k = 0x00 := by
  apply BitVec.eq_of_getLsbD_eq
  intro j hj
  have hx : x.getLsbD (8 * k + j) = false := BitVec.getLsbD_of_ge _ _ (by omega)
  simp [lane, hx]

theorem revIndex_of_not_isMember {c : Byte} (h : isMember c = false) : revIndex c = 0 := by
  have hr : rev c = none := by simpa [isMember] using h
  simp [revIndex, hr]

theorem resultShape_enc (r : Nat) (din : Word) (last : Bool) :
    ResultShape (encodeGroup r din) (tokenWidth r) 0 false last where
  len_le := tokenWidth_le r
  tlen_le := Nat.zero_le 8
  of_hit := by simp
  of_tlen := by simp
  lane_eq_zero k hk hl := by
    rw [encodeGroup, lane_ofLanes _ _ hk, if_neg (Nat.not_lt.mpr hl)]
    rfl

theorem resultShape_dec (din : Word) :
    ResultShape (decodeToken din) (byteCount (tokenLength din)) (tokenLength din) false
      (decide (tokenLength din < 8)) where
  len_le := (byteCount_le _).trans (by decide)
  tlen_le := tokenLength_le din
  of_hit := by simp
  of_tlen _ := ⟨rfl, rfl, rfl⟩
  lane_eq_zero k hk hl := by
    rw [decodeToken, lane_ofLanes _ _ hk, if_neg (Nat.not_lt.mpr hl)]
    rfl

theorem resultShape_lut (b : Byte) : ResultShape (byteWord b) 1 0 true false where
  len_le := by decide
  tlen_le := by decide
  of_hit _ := ⟨rfl, rfl, rfl⟩
  of_tlen := by simp
  lane_eq_zero k _ hl := lane_setWidth_eq_zero b (by decide) k hl

theorem resultShape_rlut (c : Byte) :
    ResultShape (indexWord (revIndex c)) (if isMember c then 1 else 0) 0 (isMember c) false where
  len_le := by split <;> decide
  tlen_le := by decide
  of_hit h := by simp [h]
  of_tlen := by simp
  lane_eq_zero k _ hl := by
    cases hc : isMember c with
    | true => exact lane_setWidth_eq_zero _ (by decide) k (by simpa [hc] using hl)
    | false => simp [indexWord, revIndex_of_not_isMember hc]

/-- ENC, DEC, LUT and RLUT with a legal operand write a result of the shape above, which only DIN determines (R37). -/
theorem exec_writes_of_din {i : Instr} (din : Word) (hw : i.wf = true) (hn : i ≠ .nop) (hc : i ≠ .clr) :
    ∃ d l m hit last, ResultShape d l m hit last ∧
      ∀ s : State, s.din = din → exec i s = .next (writeResult d l m hit last s) := by
  cases i with
  | nop => exact absurd rfl hn
  | clr => exact absurd rfl hc
  | enc n =>
    have hle : n.toNat ≤ 5 := of_decide_eq_true hw
    exact ⟨_, _, _, _, _, resultShape_enc n.toNat din _, fun s hs => hs ▸ exec_enc n s hle⟩
  | dec => exact ⟨_, _, _, _, _, resultShape_dec din, fun s hs => by subst hs; rfl⟩
  | lut k =>
    have hlt : k.toNat < Config.alphabetSize := of_decide_eq_true hw
    exact ⟨_, _, _, _, _, resultShape_lut _, fun s _ => if_pos hlt⟩
  | rlut c => exact ⟨_, _, _, _, _, resultShape_rlut c, fun s _ => rfl⟩

/-- The state a command leaves: `exec_cases` read from the answer, with the shape of the result that is written. -/
theorem exec_next_cases {i : Instr} {s t : State} (h : exec i s = .next t) :
    (i = .nop ∧ t = s) ∨
    (i = .clr ∧ t = clearState s) ∨
    (i.wf = false ∧ ∃ c, t = takeIllegal c s) ∨
    (i.wf = true ∧ i ≠ .nop ∧ i ≠ .clr ∧
      ∃ d l m hit last, ResultShape d l m hit last ∧ t = writeResult d l m hit last s) := by
  obtain ⟨hi, he⟩ | ⟨hi, he⟩ | ⟨hi, c, he⟩ | ⟨hw, hn, hc, -⟩ := exec_cases i s
  · exact .inl ⟨hi, by simpa [he] using h.symm⟩
  · exact .inr (.inl ⟨hi, by simpa [he] using h.symm⟩)
  · exact .inr (.inr (.inl ⟨hi, c, by simpa [he] using h.symm⟩))
  · obtain ⟨d, l, m, hit, last, hshape, he⟩ := exec_writes_of_din s.din hw hn hc
    exact .inr (.inr (.inr ⟨hw, hn, hc, d, l, m, hit, last, hshape, by simpa [he s rfl] using h.symm⟩))

/-- No command changes CMD, DIN, the reset input, the base address or the host's side (R24, R26). -/
theorem exec_frame {i : Instr} {s t : State} (h : exec i s = .next t) :
    t.cmd = s.cmd ∧ t.din = s.din ∧ t.resetAsserted = s.resetAsserted ∧ t.codecBase = s.codecBase ∧
      t.pending = s.pending ∧ t.returned = s.returned := by
  obtain ⟨-, rfl⟩ | ⟨-, rfl⟩ | ⟨-, c, rfl⟩ | ⟨-, -, -, d, l, m, hit, last, -, rfl⟩ := exec_next_cases h
  all_goals simp

/-- ERR and ECODE change by no command with a legal operand but CLR (R32, R33). -/
theorem exec_error_frame {i : Instr} {s t : State} (h : exec i s = .next t) (hw : i.wf = true) (hc : i ≠ .clr) :
    t.status.err = s.status.err ∧ t.status.ecode = s.status.ecode := by
  obtain ⟨-, rfl⟩ | ⟨hclr, -⟩ | ⟨hill, -⟩ | ⟨-, -, -, d, l, m, hit, last, -, rfl⟩ := exec_next_cases h
  · simp
  · exact absurd hclr hc
  · simp [hw] at hill
  · simp

/-- NOP and a command with an operand out of range write no result (R140, R173). -/
theorem exec_result_frame {i : Instr} {s t : State} (h : exec i s = .next t) (hi : i = .nop ∨ i.wf = false) :
    t.dout = s.dout ∧ t.status.len = s.status.len ∧ t.status.tlen = s.status.tlen ∧
      t.status.hit = s.status.hit ∧ t.status.last = s.status.last := by
  obtain ⟨-, rfl⟩ | ⟨rfl, -⟩ | ⟨-, c, rfl⟩ | ⟨hw, hn, -, -⟩ := exec_next_cases h
  · simp
  · simp [Instr.wf] at hi
  · simp
  · simp [hw, hn] at hi

/-- A legal word written to CMD runs its command, the word already in CMD (R68). -/
theorem step_command {s : State} {v : Word} {i : Instr} {rest : List HostEvent} (h : s.AboutTo .cmd (some v) rest)
    (hd : decode v = .ok i) : step s = exec i (s.withCommand v rest) := by
  rw [step_write h, writeReg, writeCmd, hd]

/-! ### Statements about the commands -/

/-- Settles O39: the three frame rules of `exec`. -/
theorem commandsFrame : Obligations.CommandsFrame := by
  intro i s t h
  obtain ⟨hcmd, hdin, hreset, hbase, hpending, hreturned⟩ := exec_frame h
  exact ⟨hcmd, hdin, hreset, hbase, hpending, hreturned, exec_error_frame h, exec_result_frame h⟩

/-- Settles O41: the two blocks run the command in states with one DIN, which CLR ignores and which alone determines the
result that any other command writes. -/
theorem resultDependsOnWordAndDinOnly : Obligations.ResultDependsOnWordAndDinOnly := by
  intro s s' v i rest rest' hdin ha ha' hd hn
  rw [step_command ha hd, step_command ha' hd]
  by_cases hc : i = .clr
  · subst hc
    exact ⟨_, _, rfl, rfl, rfl, rfl, rfl, rfl, rfl⟩
  · obtain ⟨d, l, m, hit, last, -, he⟩ := exec_writes_of_din s.din (decode_wf hd) hn hc
    exact ⟨_, _, he _ rfl, he _ hdin.symm, rfl, rfl, rfl, rfl, rfl⟩

/-! ### What a step leaves in the registers -/

/-- The four registers of `s` stand in `t`, and reset is not asserted anew. -/
structure KeepsRegisters (s t : State) : Prop where
  cmd_eq : t.cmd = s.cmd
  status_eq : t.status = s.status
  din_eq : t.din = s.din
  dout_eq : t.dout = s.dout
  reset_of_reset : t.resetAsserted = true → s.resetAsserted = true

/-- Every register at its reset value (R39). -/
structure RegistersZero (t : State) : Prop where
  cmd_eq : t.cmd = 0
  status_eq : t.status = Status.zero
  din_eq : t.din = 0
  dout_eq : t.dout = 0

/-- A step keeps the registers, or it clears them (reset and the return of power), or it is a host write of DIN, of a legal
word to CMD, or of an illegal word to CMD: `step_cases` with its outcomes grouped by what becomes of the registers. -/
theorem step_register_cases {s t : State} (h : step s = .next t) :
    KeepsRegisters s t ∨
    (∃ rest, (s.pending = .assertReset :: rest ∨ s.pending = .powerRestored :: rest) ∧ RegistersZero t) ∨
    (∃ v rest, s.AboutTo .din (some v) rest ∧ t = { s with din := v, pending := rest, returned := none }) ∨
    (∃ v i rest, s.AboutTo .cmd (some v) rest ∧ decode v = .ok i ∧ exec i (s.withCommand v rest) = .next t) ∨
    (∃ v c rest, s.AboutTo .cmd (some v) rest ∧ decode v = .error c ∧ t = takeIllegal c (s.withCommand v rest)) := by
  obtain ⟨-, rfl⟩ | ⟨rest, hp, rfl⟩ | ⟨rest, -, rfl⟩ | ⟨rest, hp, rfl⟩ | ⟨rest, x, -, rfl⟩ | ⟨r, rest, -, rfl⟩ |
    ⟨r, v, rest, ha, hw⟩ := step_cases h
  · exact .inl ⟨rfl, rfl, rfl, rfl, id⟩
  · exact .inr (.inl ⟨rest, .inl hp, rfl, rfl, rfl, rfl⟩)
  · exact .inl ⟨rfl, rfl, rfl, rfl, nofun⟩
  · exact .inr (.inl ⟨rest, .inr hp, rfl, rfl, rfl, rfl⟩)
  · exact .inl ⟨rfl, rfl, rfl, rfl, id⟩
  · exact .inl ⟨rfl, rfl, rfl, rfl, id⟩
  · obtain ⟨rfl, i, hd, he⟩ | ⟨rfl, c, hd, rfl⟩ | ⟨rfl, rfl⟩ | ⟨-, rfl⟩ := writeReg_cases hw
    · exact .inr (.inr (.inr (.inl ⟨v, i, rest, ha, hd, he⟩)))
    · exact .inr (.inr (.inr (.inr ⟨v, c, rest, ha, hd, rfl⟩)))
    · exact .inr (.inr (.inl ⟨v, rest, ha, rfl⟩))
    · exact .inl ⟨rfl, rfl, rfl, rfl, id⟩

/-- Settles O42: commands and exceptions leave DIN, so only a write to it and the clearing of all registers change it. -/
theorem onlyAHostWriteChangesDin : Obligations.OnlyAHostWriteChangesDin := by
  intro s t h hne
  obtain hkeep | ⟨rest, hp, hzero⟩ | ⟨v, rest, ha, rfl⟩ | ⟨v, i, rest, -, -, he⟩ | ⟨v, c, rest, -, -, rfl⟩ :=
    step_register_cases h
  · exact absurd hkeep.din_eq hne
  · exact .inr ⟨rest, hp, hzero.din_eq⟩
  · exact .inl ⟨rest, ha⟩
  · obtain ⟨-, hdin, -⟩ := exec_frame he
    exact absurd hdin hne
  · exact absurd rfl hne

/-- Settles O43: NOP and exceptions leave DOUT, so only another legal command and the clearing of all registers change it. -/
theorem onlyAResultCommandChangesDout : Obligations.OnlyAResultCommandChangesDout := by
  intro s t h hne
  obtain hkeep | ⟨rest, hp, hzero⟩ | ⟨v, rest, -, rfl⟩ | ⟨v, i, rest, ha, hd, he⟩ | ⟨v, c, rest, -, -, rfl⟩ :=
    step_register_cases h
  · exact absurd hkeep.dout_eq hne
  · exact .inr ⟨rest, hp, hzero.dout_eq⟩
  · exact absurd rfl hne
  · refine .inl ⟨v, i, rest, ha, hd, fun hn => ?_⟩
    obtain ⟨hdout, -⟩ := exec_result_frame he (.inl hn)
    exact hne hdout
  · exact absurd rfl hne

/-- A legal word's command clears ERR only as CLR (R32, R175). -/
theorem eq_clr_of_exec_clears_err {i : Instr} {s t : State} (h : exec i s = .next t) (hw : i.wf = true)
    (hs : s.status.err = true) (ht : t.status.err = false) : i = .clr := by
  by_contra hc
  obtain ⟨herr, -⟩ := exec_error_frame h hw hc
  simp [hs, ht] at herr

/-- No command with a legal operand sets ERR (R32). -/
theorem exec_err_of_not_err {i : Instr} {s t : State} (h : exec i s = .next t) (hw : i.wf = true)
    (hs : s.status.err = false) : t.status.err = false := by
  by_cases hc : i = .clr
  · subst hc
    obtain rfl : clearState s = t := by simpa [exec, execClr] using h
    rfl
  · obtain ⟨herr, -⟩ := exec_error_frame h hw hc
    rw [herr, hs]

/-- Only CLR, reset and the return of power clear ERR (R32, R175). -/
theorem step_clears_err {s t : State} (h : step s = .next t) (hs : s.status.err = true) (ht : t.status.err = false) :
    (∃ rest, s.AboutTo .cmd (some 0x5) rest) ∨
    (∃ rest, s.pending = .assertReset :: rest ∨ s.pending = .powerRestored :: rest) := by
  obtain hkeep | ⟨rest, hp, -⟩ | ⟨v, rest, -, rfl⟩ | ⟨v, i, rest, ha, hd, he⟩ | ⟨v, c, rest, -, -, rfl⟩ :=
    step_register_cases h
  · simp [hkeep.status_eq, hs] at ht
  · exact .inr ⟨rest, hp⟩
  · simp [hs] at ht
  · obtain rfl := eq_clr_of_exec_clears_err he (decode_wf hd) hs ht
    obtain rfl := eq_five_of_decode_clr hd
    exact .inl ⟨rest, ha⟩
  · simp at ht

/-- Only an illegal word sets ERR, and ECODE is then its code (R32, R172). -/
theorem step_sets_err {s t : State} (h : step s = .next t) (hs : s.status.err = false) (ht : t.status.err = true) :
    ∃ v c rest, s.AboutTo .cmd (some v) rest ∧ decode v = .error c ∧ t.status.ecode = c.code := by
  obtain hkeep | ⟨rest, -, hzero⟩ | ⟨v, rest, -, rfl⟩ | ⟨v, i, rest, -, hd, he⟩ | ⟨v, c, rest, ha, hd, rfl⟩ :=
    step_register_cases h
  · simp [hkeep.status_eq, hs] at ht
  · simp [hzero.status_eq] at ht
  · simp [hs] at ht
  · simp [exec_err_of_not_err he (decode_wf hd) hs] at ht
  · exact ⟨v, c, rest, ha, hd, by rw [takeIllegal_status, withIllegal_of_not_err _ _ hs]⟩

/-- Settles O44: its two directions. -/
theorem errIsSetByIllegalAndClearedByClrOrReset : Obligations.ErrIsSetByIllegalAndClearedByClrOrReset :=
  fun _ _ h => ⟨step_clears_err h, step_sets_err h⟩

/-! ### The state after reset and the ROM -/

/-- Settles O13: the registers by evaluation, the ROM entry by entry. -/
theorem resetStateHoldsZeros : Obligations.ResetStateHoldsZeros := by
  refine ⟨rfl, rfl, rfl, ?_, rfl, rfl, rfl, rfl, rfl, rfl, ?_⟩
  · decide
  · decide

/-- The search loop of R82 finds a character exactly where it is listed. -/
theorem searchFrom_isSome_iff (c : Byte) (es : List Byte) (n : Nat) : (searchFrom c es n).isSome = true ↔ c ∈ es := by
  induction es generalizing n with
  | nil => simp [searchFrom]
  | cons e es ih =>
    by_cases he : e = c
    · simp [searchFrom, he]
    · simp [searchFrom, he, Ne.symm he, ih]

/-- A character is a member exactly if it is a ROM entry (R13). -/
theorem isMember_iff_mem_rom (c : Byte) : isMember c = true ↔ c ∈ Config.rom := by
  rw [isMember, rev, Option.isSome_map, searchFrom_isSome_iff]

theorem rom_length : Config.rom.length = 36 := rfl

theorem rom_nodup : Config.rom.Nodup := by decide

theorem romEntry_eq_getElem {k : Nat} (hk : k < Config.rom.length) : romEntry k = Config.rom[k] :=
  List.getD_eq_getElem _ _ hk

/-- Settles O18: a member is an entry of the ROM, and where no entry is repeated its position is unique. -/
theorem romEntriesAreDistinct : Obligations.RomEntriesAreDistinct := by
  refine ⟨rom_length, rom_nodup, fun c hc => ?_⟩
  obtain ⟨k, hk, rfl⟩ := List.mem_iff_getElem.mp ((isMember_iff_mem_rom c).mp hc)
  refine ⟨k, ⟨hk, romEntry_eq_getElem hk⟩, fun j hj he => ?_⟩
  rw [romEntry_eq_getElem hj] at he
  exact (rom_nodup.getElem_inj_iff).mp he

/-! ### The invariant -/

theorem coherent_zero : Status.zero.coherent := by decide

/-- Taking the exception keeps STATUS coherent: the codes are 1 to 5 (R170). -/
theorem coherent_withIllegal {u : Status} (h : u.coherent) (c : IllegalCause) : (u.withIllegal c).coherent := by
  obtain ⟨hclear, hset, hresult⟩ := h
  have hcode : 1 ≤ c.code.toNat ∧ c.code.toNat ≤ 5 := by cases c <;> decide
  cases he : u.err with
  | true => simpa [he] using ⟨hclear, hset, hresult⟩
  | false => rw [withIllegal_of_not_err u c he]; exact ⟨nofun, fun _ => hcode, hresult⟩

theorem toNat_ofNat_four {n : Nat} (h : n ≤ 8) : (BitVec.ofNat 4 n).toNat = n := by
  rw [BitVec.toNat_ofNat, Nat.mod_eq_of_lt (by omega)]

/-- Writing a result of the right shape keeps STATUS coherent. -/
theorem coherent_withResult {u : Status} (h : u.coherent) {d : Word} {l m : Nat} {hit last : Bool}
    (hr : ResultShape d l m hit last) : (u.withResult l m hit last).coherent := by
  obtain ⟨hclear, hset, -⟩ := h
  have hl := toNat_ofNat_four hr.len_le
  have hm := toNat_ofNat_four hr.tlen_le
  refine ⟨hclear, hset, ?_, ?_, fun hhit => ?_, fun htlen => ?_⟩
  · simpa only [withResult_len, hl] using hr.len_le
  · simpa only [withResult_tlen, hm] using hr.tlen_le
  · obtain ⟨rfl, rfl, hlast⟩ := hr.of_hit hhit
    exact ⟨rfl, rfl, hlast⟩
  · have hm0 : m ≠ 0 := by rintro rfl; exact htlen rfl
    rw [withResult_len, withResult_tlen, hl, hm]
    exact hr.of_tlen hm0

/-- Cleared registers meet the invariant. -/
theorem inv_of_registersZero {t : State} (h : RegistersZero t) : t.Inv := by
  obtain ⟨hcmd, hstatus, hdin, hdout⟩ := h
  refine ⟨?_, fun k _ _ => ?_, fun _ => ⟨hcmd, hstatus, hdin, hdout⟩⟩
  · rw [hstatus]; exact coherent_zero
  · rw [hdout]; exact lane_zero k

/-- The invariant reads only the registers and the reset input. -/
theorem inv_of_keepsRegisters {s t : State} (hs : s.Inv) (h : KeepsRegisters s t) : t.Inv := by
  obtain ⟨hcmd, hstatus, hdin, hdout, hreset⟩ := h
  obtain ⟨hcoh, hzero, hheld⟩ := hs
  refine ⟨?_, ?_, fun ht => ?_⟩
  · rw [hstatus]; exact hcoh
  · rw [State.doutZeroPastLen, hstatus, hdout]; exact hzero
  · rw [hcmd, hstatus, hdin, hdout]; exact hheld (hreset ht)

/-- While reset is released the invariant says nothing of CMD and DIN. -/
theorem inv_of_released {t : State} (hreset : t.resetAsserted = false) (hcoh : t.status.coherent)
    (hzero : t.doutZeroPastLen) : t.Inv :=
  ⟨hcoh, hzero, fun ht => by simp [hreset] at ht⟩

/-- Storing the word in CMD while reset is released keeps the invariant. -/
theorem inv_withCommand {s : State} (hs : s.Inv) (hreset : s.resetAsserted = false) (v : Word) (rest : List HostEvent) :
    (s.withCommand v rest).Inv := by
  obtain ⟨hcoh, hzero, -⟩ := hs
  exact inv_of_released hreset hcoh hzero

/-- Taking the exception while reset is released keeps the invariant. -/
theorem inv_takeIllegal {s : State} (hs : s.Inv) (hreset : s.resetAsserted = false) (c : IllegalCause) :
    (takeIllegal c s).Inv := by
  obtain ⟨hcoh, hzero, -⟩ := hs
  refine inv_of_released hreset (coherent_withIllegal hcoh c) fun k hk hlen => hzero k hk ?_
  simpa using hlen

/-- Writing a result of the right shape while reset is released keeps the invariant. -/
theorem inv_writeResult {s : State} (hs : s.Inv) (hreset : s.resetAsserted = false) {d : Word} {l m : Nat}
    {hit last : Bool} (hr : ResultShape d l m hit last) : (writeResult d l m hit last s).Inv := by
  obtain ⟨hcoh, -, -⟩ := hs
  refine inv_of_released hreset (coherent_withResult hcoh hr) fun k hk hlen => hr.lane_eq_zero k hk ?_
  simpa only [writeResult_status, withResult_len, toNat_ofNat_four hr.len_le] using hlen

/-- Every command run while reset is released keeps the invariant. -/
theorem exec_inv {i : Instr} {s t : State} (hs : s.Inv) (hreset : s.resetAsserted = false) (h : exec i s = .next t) :
    t.Inv := by
  obtain ⟨-, rfl⟩ | ⟨-, rfl⟩ | ⟨-, c, rfl⟩ | ⟨-, -, -, d, l, m, hit, last, hr, rfl⟩ := exec_next_cases h
  · exact hs
  · exact inv_of_released hreset coherent_zero fun k _ _ => lane_zero k
  · exact inv_takeIllegal hs hreset c
  · exact inv_writeResult hs hreset hr

/-- Settles O45: every register is zero. -/
theorem invariantHoldsAtReset : Obligations.InvariantHoldsAtReset :=
  inv_of_registersZero ⟨rfl, rfl, rfl, rfl⟩

/-- Settles O46, by what the step does to the registers: a write reaches the block only while reset is released, where the
new CMD or DIN is no part of the invariant. -/
theorem invariantIsKept : Obligations.InvariantIsKept := by
  intro s t hs h
  obtain hkeep | ⟨rest, -, hzero⟩ | ⟨v, rest, ha, rfl⟩ | ⟨v, i, rest, ha, -, he⟩ | ⟨v, c, rest, ha, -, rfl⟩ :=
    step_register_cases h
  · exact inv_of_keepsRegisters hs hkeep
  · exact inv_of_registersZero hzero
  · obtain ⟨hreset, -⟩ := ha
    obtain ⟨hcoh, hlanes, -⟩ := hs
    exact inv_of_released hreset hcoh hlanes
  · obtain ⟨hreset, -⟩ := ha
    exact exec_inv (inv_withCommand hs hreset v rest) hreset he
  · obtain ⟨hreset, -⟩ := ha
    exact inv_takeIllegal (inv_withCommand hs hreset v rest) hreset c

end Sys2Proof.Machine
end

section
/-! Host accesses (20_memory.md): what the step of an access is, by its width and its address (R42, R43), the STATUS word's
reserved bits (R34), and a second write of the same value (R44). -/

namespace Sys2Proof.Machine

/-! ### The step of an access -/

theorem step_access {s : State} {a : Access} {rest : List HostEvent} (h : s.pending = .access a :: rest) :
    step s = performAccess a { s with pending := rest } := by
  rw [step, h]
  rfl

theorem performAccess_of_bits_ne {a : Access} (s : State) (h : a.bits ≠ 64) :
    performAccess a s = .refused .accessNot64Bits :=
  if_neg h

theorem windowOffset_of_inside {base a : Nat} (h₁ : base ≤ a) (h₂ : a < base + 0x20) :
    windowOffset base a = some (BitVec.ofNat 5 (a - base)) :=
  if_pos ⟨h₁, h₂⟩

theorem windowOffset_of_outside {base a : Nat} (h : a < base ∨ base + 0x20 ≤ a) : windowOffset base a = none :=
  if_neg fun ⟨h₁, h₂⟩ => by simp only [Config.windowSize] at h₂; omega

/-- Bits [4:3] of a window offset number its 8-byte slot, whatever bits [2:0] are (R42). -/
theorem toNat_slotBits (d : Nat) : ((BitVec.ofNat 5 d).extractLsb' 3 2).toNat = d / 8 % 4 := by
  simp only [BitVec.extractLsb'_toNat, BitVec.toNat_ofNat, Nat.shiftRight_eq_div_pow]
  omega

theorem selectReg_eq_of_slot_eq {d e : Nat} (h : d / 8 = e / 8) :
    selectReg (BitVec.ofNat 5 d) = selectReg (BitVec.ofNat 5 e) := by
  simp only [selectReg, toNat_slotBits, h]

/-- The table of R42. -/
theorem selectReg_eq (o : BitVec 5) :
    selectReg o = match o.extractLsb' 3 2 with
      | 0 => .cmd
      | 1 => .status
      | 2 => .din
      | 3 => .dout := by
  revert o
  decide

section
variable {a : Access} {s : State} (hbits : a.bits = 64)
include hbits

/-- A 64-bit access inside the window reaches the register that its offset selects. -/
theorem performAccess_inside (h₁ : s.codecBase ≤ a.address) (h₂ : a.address < s.codecBase + 0x20) :
    performAccess a s = accessReg (selectReg (BitVec.ofNat 5 (a.address - s.codecBase))) a.write s := by
  rw [performAccess, Config.accessBits, if_pos hbits, windowOffset_of_inside h₁ h₂]

theorem performAccess_outside (h : a.address < s.codecBase ∨ s.codecBase + 0x20 ≤ a.address) :
    performAccess a s = .refused .accessOutsideWindow := by
  rw [performAccess, Config.accessBits, if_pos hbits, windowOffset_of_outside h]

/-- Moving an access inside the window to another byte of its 8-byte slot changes nothing. -/
theorem performAccess_same_slot {b : Nat} (h₁ : s.codecBase ≤ a.address) (h₂ : a.address < s.codecBase + 0x20)
    (hb : s.codecBase ≤ b) (hslot : (b - s.codecBase) / 8 = (a.address - s.codecBase) / 8) :
    performAccess { a with address := b } s = performAccess a s := by
  have hb₂ : b < s.codecBase + 0x20 := by omega
  rw [performAccess_inside hbits h₁ h₂, performAccess_inside (a := { a with address := b }) hbits hb hb₂,
    selectReg_eq_of_slot_eq hslot]

end

/-- Settles O9: inside the window the step is the selected register's access, outside it the refusal. -/
theorem offsetBitsFourAndThreeSelect : Obligations.OffsetBitsFourAndThreeSelect := by
  intro s a w rest hp
  rw [step_access hp]
  refine ⟨fun b h₁ h₂ hb hslot => ?_, fun h₁ h₂ => ⟨rest, ?_⟩, fun h => performAccess_outside rfl h⟩
  · rw [step_access rfl]
    exact performAccess_same_slot (a := { address := a, bits := 64, write := w }) rfl h₁ h₂ hb hslot
  · rw [performAccess_inside rfl h₁ h₂]
    exact congrArg (fun r => accessReg r w { s with pending := rest }) (selectReg_eq _)

/-- Settles O10: the width is judged before the window. -/
theorem otherWidthsAreRefused : Obligations.OtherWidthsAreRefused := by
  intro s a rest hp hbits
  rw [step_access hp, performAccess_of_bits_ne _ hbits]

/-! ### Reads -/

/-- A field of a word is 0 where each of its bits is. -/
theorem extractLsb'_eq_zero {v : Word} {start len : Nat} (h : ∀ i < len, v.getLsbD (start + i) = false) :
    v.extractLsb' start len = 0 := by
  apply BitVec.eq_of_getLsbD_eq
  intro i hi
  simp [hi, h i hi]

/-- Every reserved bit of STATUS reads 0 (R34). -/
theorem statusWord_reserved (t : Status) {i : Nat}
    (h : (10 ≤ i ∧ i < 16) ∨ (17 ≤ i ∧ i < 20) ∨ (24 ≤ i ∧ i < 64)) : t.word.getLsbD i = false := by
  rw [statusWord_getLsbD]
  simp only [BitVec.getLsbD_append]
  obtain ⟨h₁, h₂⟩ | ⟨h₁, h₂⟩ | ⟨h₁, h₂⟩ := h
  all_goals interval_cases i <;> simp

/-- Settles O7: a read answers `readReg`, for STATUS its word with the fields at their places. -/
theorem readsReturnTheRegister : Obligations.ReadsReturnTheRegister := by
  intro s r rest h
  refine ⟨readReg r s, step_read h, ?_⟩
  cases r with
  | cmd => rfl
  | din => rfl
  | dout => rfl
  | status =>
    exact ⟨statusWord_len _, statusWord_tlen _, statusWord_hit _, statusWord_last _,
      extractLsb'_eq_zero fun i hi => statusWord_reserved _ (by omega), statusWord_err _,
      extractLsb'_eq_zero fun i hi => statusWord_reserved _ (by omega), statusWord_ecode _,
      extractLsb'_eq_zero fun i hi => statusWord_reserved _ (by omega)⟩

/-! ### Writes -/

/-- Settles O8: the step of a write is the register's own. -/
theorem writesReachOnlyWritableRegisters : Obligations.WritesReachOnlyWritableRegisters :=
  fun _ _ _ => ⟨fun h => step_write h, fun h => step_write h, fun h => step_write h⟩

/-- The exception taken twice is the exception taken once: the second finds ERR set (R174). -/
theorem withIllegal_withIllegal (t : Status) (c : IllegalCause) : (t.withIllegal c).withIllegal c = t.withIllegal c :=
  withIllegal_of_err _ _ (withIllegal_err t c)

/-- A command with a legal operand, run again on what it left, changes nothing: it leaves DIN, which alone determines what it
writes (R37). -/
theorem exec_again {i : Instr} {s t : State} (hw : i.wf = true) (h : exec i s = .next t) (p : List HostEvent) :
    exec i { t with pending := p } = .next { t with pending := p } := by
  by_cases hn : i = .nop
  · subst hn; rfl
  by_cases hc : i = .clr
  · subst hc
    obtain rfl : clearState s = t := by simpa [exec, execClr] using h
    rfl
  obtain ⟨d, l, m, hit, last, -, he⟩ := exec_writes_of_din s.din hw hn hc
  obtain rfl : writeResult d l m hit last s = t := by simpa [he s rfl] using h
  exact he _ rfl

/-- A write leaves the model's field `returned` to the port. -/
theorem writeReg_returned {r : Reg} {v : Word} {s t : State} (h : writeReg r v s = .next t) : t.returned = s.returned := by
  obtain ⟨-, i, -, he⟩ | ⟨-, c, -, rfl⟩ | ⟨-, rfl⟩ | ⟨-, rfl⟩ := writeReg_cases h
  · obtain ⟨-, -, -, -, -, hreturned⟩ := exec_frame he
    exact hreturned
  · rfl
  · rfl
  · rfl

/-- A write of the same value to the state a write left changes nothing (R44). -/
theorem writeReg_again {r : Reg} {v : Word} {s t : State} (h : writeReg r v s = .next t) (p : List HostEvent) :
    writeReg r v { t with pending := p } = .next { t with pending := p } := by
  obtain ⟨rfl, i, hd, he⟩ | ⟨rfl, c, hd, rfl⟩ | ⟨rfl, rfl⟩ | ⟨rfl | rfl, rfl⟩ := writeReg_cases h
  · obtain ⟨rfl, -⟩ := exec_frame he
    simpa only [writeReg, writeCmd, hd] using exec_again (decode_wf hd) he p
  · simp only [writeReg, writeCmd, hd, takeIllegal, withIllegal_withIllegal]
  · rfl
  · rfl
  · rfl

/-- Settles O12: the first write left `returned` none, so the second is a write to the state it left. -/
theorem secondIdenticalWriteChangesNothing : Obligations.SecondIdenticalWriteChangesNothing := by
  intro s t u r v rest rest' hs hst ht htu
  rw [step_write hs] at hst
  have hreturned : t.returned = none := writeReg_returned hst
  rw [step_write ht, ← hreturned, writeReg_again hst rest'] at htu
  simpa using htu.symm

end Sys2Proof.Machine
end

section
/-! The command word (30_encoding.md): its fields, the decoder as the inverse of the encoder (R65, R68), the row of the opcode
map that a word lies in (R65), the five conditions of R67 as conditions on a number, the step of a write to CMD (R68, R172),
and the words that the host's statements write (R72). -/

namespace Sys2Proof

/-! ### The fields of a command word -/

section
variable (op : BitVec 4) (n : BitVec 3) (arg : Byte)

@[simp] theorem opField_commandWord : opField (commandWord op n arg) = op := BitVec.extractLsb'_append_eq_right

@[simp] theorem nField_commandWord : nField (commandWord op n arg) = n := by
  rw [nField, commandWord, BitVec.extractLsb'_append_eq_of_le (by decide)]
  exact BitVec.extractLsb'_append_eq_right

@[simp] theorem reservedBit7_commandWord : reservedBit7 (commandWord op n arg) = 0 := by
  rw [reservedBit7, commandWord, BitVec.extractLsb'_append_eq_of_le (by decide),
    BitVec.extractLsb'_append_eq_of_le (by decide)]
  exact BitVec.extractLsb'_append_eq_right

@[simp] theorem argField_commandWord : argField (commandWord op n arg) = arg := by
  rw [argField, commandWord, BitVec.extractLsb'_append_eq_of_le (by decide),
    BitVec.extractLsb'_append_eq_of_le (by decide), BitVec.extractLsb'_append_eq_of_le (by decide)]
  exact BitVec.extractLsb'_append_eq_right

@[simp] theorem reservedHigh_commandWord : reservedHigh (commandWord op n arg) = 0 := by
  rw [reservedHigh, commandWord, BitVec.extractLsb'_append_eq_of_le (by decide),
    BitVec.extractLsb'_append_eq_of_le (by decide), BitVec.extractLsb'_append_eq_of_le (by decide)]
  exact BitVec.extractLsb'_append_eq_left

end

/-- A command word is its fields shifted into place (R72). -/
theorem commandWord_eq_or (op : BitVec 4) (n : BitVec 3) (arg : Byte) :
    commandWord op n arg = (arg.setWidth 64 <<< 8) ||| (n.setWidth 64 <<< 4) ||| op.setWidth 64 := by
  have hbit (j : Nat) : (commandWord op n arg).getLsbD j =
      BitVec.getLsbD (w := 48 + 8 + 1 + 3 + 4) (0#48 ++ arg ++ 0#1 ++ n ++ op) j := rfl
  apply BitVec.eq_of_getLsbD_eq
  intro j hj
  rw [hbit]
  simp only [BitVec.getLsbD_append, BitVec.getLsbD_or, BitVec.getLsbD_shiftLeft, BitVec.getLsbD_setWidth]
  interval_cases j <;> simp

/-- Words with equal fields are equal (R60). -/
theorem word_ext_fields {v w : Word} (hhigh : reservedHigh v = reservedHigh w) (harg : argField v = argField w)
    (h7 : reservedBit7 v = reservedBit7 w) (hn : nField v = nField w) (hop : opField v = opField w) : v = w := by
  rw [word_eq_fields v, word_eq_fields w, hhigh, harg, h7, hn, hop]

/-! ### Decoding is the inverse of encoding -/

theorem decode_of_illegalCause_none {v : Word} (h : illegalCause v = none) : decode v = selectCommand v := by
  simp only [decode, h]

theorem decode_of_illegalCause_some {v : Word} {c : IllegalCause} (h : illegalCause v = some c) : decode v = .error c := by
  simp only [decode, h]

/-- The word of a well-formed command meets none of R67's conditions. -/
theorem illegalCause_encode {i : Instr} (hw : i.wf = true) : illegalCause (encode i) = none := by
  cases i with
  | nop => simp [illegalCause, encode]
  | enc n =>
    have hn : n.toNat ≤ 5 := of_decide_eq_true hw
    simpa [illegalCause, encode] using Nat.lt_succ_of_le hn
  | dec => simp [illegalCause, encode]
  | lut k =>
    have hk : k.toNat < 36 := of_decide_eq_true hw
    simpa [illegalCause, encode] using hk
  | rlut c => simp [illegalCause, encode]
  | clr => simp [illegalCause, encode]

/-- The word of a command selects that command, whatever the operand. -/
theorem selectCommand_encode (i : Instr) : selectCommand (encode i) = .ok i := by
  cases i <;> simp [selectCommand, encode]

theorem decode_encode {i : Instr} (hw : i.wf = true) : decode (encode i) = .ok i := by
  rw [decode_of_illegalCause_none (illegalCause_encode hw), selectCommand_encode]

/-- A legal word has no bit that its command does not fix. -/
theorem encode_of_decode {v : Word} {i : Instr} (h : decode v = .ok i) : encode i = v := by
  obtain ⟨hhigh, h7, hop⟩ := decode_cases h
  obtain ⟨ho, hn, ha, rfl⟩ | ⟨ho, -, ha, rfl⟩ | ⟨ho, hn, ha, rfl⟩ | ⟨ho, hn, -, rfl⟩ | ⟨ho, hn, rfl⟩ |
    ⟨ho, hn, ha, rfl⟩ := hop
  all_goals apply word_ext_fields <;> simp [encode, *]

/-- The decoder answers a command for that command's own word alone, and only where the command is well formed. -/
theorem decode_eq_ok_iff {v : Word} {i : Instr} : decode v = .ok i ↔ v = encode i ∧ i.wf = true where
  mp h := ⟨(encode_of_decode h).symm, decode_wf h⟩
  mpr := by rintro ⟨rfl, hw⟩; exact decode_encode hw

/-- Settles O2: the encoded word is legal, and its fields select the command. -/
theorem decodeOfEncodeIsTheCommand : Obligations.DecodeOfEncodeIsTheCommand :=
  fun _ hw => decode_encode hw

/-- Settles O3: a legal word is its own fields, which the decoder puts into the command. -/
theorem encodeOfDecodeIsTheWord : Obligations.EncodeOfDecodeIsTheWord :=
  fun _ _ h => ⟨encode_of_decode h, decode_wf h⟩

/-- Settles O1, by running the decoder on the twelve words. -/
theorem sampleWordsDecode : Obligations.SampleWordsDecode := by
  unfold Obligations.SampleWordsDecode
  decide

/-! ### The opcode map -/

/-- Every command's word lies in the command's row, which is one of the map. -/
theorem row_statement (i : Instr) : Laws.Row.Statement i := by
  cases i with
  | nop => exact Laws.Row.nop
  | enc n => exact Laws.Row.enc n
  | dec => exact Laws.Row.dec
  | lut k => exact Laws.Row.lut k
  | rlut c => exact Laws.Row.rlut c
  | clr => exact Laws.Row.clr

/-- The mask of every row covers OP and the reserved bits. -/
theorem row_mask_fields : ∀ r ∈ opcodeMap,
    opField r.mask = BitVec.allOnes 4 ∧ reservedBit7 r.mask = BitVec.allOnes 1 ∧
      reservedHigh r.mask = BitVec.allOnes 48 := by
  decide

/-- A word of a command's row has the command's own bits in every field that the mask covers. -/
theorem field_eq_encode_of_row {v : Word} {i : Instr} (h : v &&& i.row.mask = i.row.pattern) (start len : Nat)
    (hm : i.row.mask.extractLsb' start len = BitVec.allOnes len) :
    v.extractLsb' start len = (encode i).extractLsb' start len := by
  obtain ⟨hrow, -⟩ := row_statement i
  have hmasked := congrArg (BitVec.extractLsb' start len) (h.trans hrow.symm)
  simpa only [BitVec.extractLsb'_and, hm, BitVec.and_allOnes] using hmasked

/-- The field that a command's row names holds the command's operand, which is in R62's or R63's range. -/
def OperandIn (v : Word) : Instr → Prop
  | .nop => True
  | .enc n => nField v = n ∧ n.toNat ≤ 5
  | .dec => True
  | .lut k => argField v = k ∧ k.toNat ≤ 35
  | .rlut c => argField v = c
  | .clr => True

theorem operandIn_encode {i : Instr} (hw : i.wf = true) : OperandIn (encode i) i := by
  cases i with
  | nop => trivial
  | enc n => exact ⟨nField_commandWord .., of_decide_eq_true hw⟩
  | dec => trivial
  | lut k => exact ⟨argField_commandWord .., Nat.le_of_lt_succ (of_decide_eq_true hw)⟩
  | rlut c => exact argField_commandWord ..
  | clr => trivial

theorem wf_of_operandIn {v : Word} {i : Instr} (ho : OperandIn v i) : i.wf = true := by
  cases i with
  | nop => rfl
  | enc n => exact decide_eq_true ho.2
  | dec => rfl
  | lut k => exact decide_eq_true (Nat.lt_succ_of_le ho.2)
  | rlut c => rfl
  | clr => rfl

section
variable {v : Word} {i : Instr} (h : v &&& i.row.mask = i.row.pattern) (ho : OperandIn v i)
include h ho

/-- Field N is ENC's operand, and masked in every other row. -/
theorem nField_eq_encode_of_row : nField v = nField (encode i) := by
  cases i with
  | nop => exact field_eq_encode_of_row h 4 3 (by decide)
  | enc n => exact ho.1.trans (nField_commandWord ..).symm
  | dec => exact field_eq_encode_of_row h 4 3 (by decide)
  | lut k => exact field_eq_encode_of_row h 4 3 (by simp only [Instr.row]; decide)
  | rlut c => exact field_eq_encode_of_row h 4 3 (by simp only [Instr.row]; decide)
  | clr => exact field_eq_encode_of_row h 4 3 (by decide)

/-- Field ARG is LUT's and RLUT's operand, and masked in every other row. -/
theorem argField_eq_encode_of_row : argField v = argField (encode i) := by
  cases i with
  | nop => exact field_eq_encode_of_row h 8 8 (by decide)
  | enc n => exact field_eq_encode_of_row h 8 8 (by simp only [Instr.row]; decide)
  | dec => exact field_eq_encode_of_row h 8 8 (by decide)
  | lut k => exact ho.1.trans (argField_commandWord ..).symm
  | rlut c => exact Eq.trans ho (argField_commandWord ..).symm
  | clr => exact field_eq_encode_of_row h 8 8 (by decide)

/-- Row and operand leave no bit of the word free. -/
theorem eq_encode_of_row : v = encode i := by
  obtain ⟨-, hmem⟩ := row_statement i
  obtain ⟨hop, h7, hhigh⟩ := row_mask_fields _ hmem
  exact word_ext_fields (field_eq_encode_of_row h _ _ hhigh) (argField_eq_encode_of_row h ho)
    (field_eq_encode_of_row h _ _ h7) (nField_eq_encode_of_row h ho) (field_eq_encode_of_row h _ _ hop)

end

/-- R65's selection rule. -/
theorem decode_eq_ok_iff_row {v : Word} {i : Instr} :
    decode v = .ok i ↔ v &&& i.row.mask = i.row.pattern ∧ OperandIn v i := by
  rw [decode_eq_ok_iff]
  constructor
  · rintro ⟨rfl, hw⟩
    obtain ⟨hrow, -⟩ := row_statement i
    exact ⟨hrow, operandIn_encode hw⟩
  · rintro ⟨hrow, ho⟩
    exact ⟨eq_encode_of_row hrow ho, wf_of_operandIn ho⟩

/-- A reserved OP is R67's first condition. -/
theorem decode_of_reservedOp {v : Word} (h : 6 ≤ (opField v).toNat) : decode v = .error .reservedOp :=
  decode_of_illegalCause_some (if_pos h)

/-- Settles O4: a word of a command's row that holds a legal operand is the command's own word. -/
theorem opcodeMapSelectsTheCommand : Obligations.OpcodeMapSelectsTheCommand := by
  refine ⟨rfl, fun i => (row_statement i).2, fun v i => ?_, fun v => decode_of_reservedOp⟩
  cases i <;> exact decode_eq_ok_iff_row

end Sys2Proof

namespace Sys2Proof.Machine

/-! ### A write to CMD -/

/-- An illegal word written to CMD raises its cause, the word already in CMD (R68, R172). -/
theorem step_illegal {s : State} {v : Word} {c : IllegalCause} {rest : List HostEvent}
    (h : s.AboutTo .cmd (some v) rest) (hd : decode v = .error c) :
    step s = .next (takeIllegal c (s.withCommand v rest)) := by
  rw [step_write h, writeReg, writeCmd, hd]

/-- Settles O6: the port decodes the word it has stored. -/
theorem stepRunsTheDecodedCommand : Obligations.StepRunsTheDecodedCommand :=
  fun _ _ _ h => ⟨fun _ hd => step_command h hd, fun _ hd => step_illegal h hd⟩

end Sys2Proof.Machine

namespace Sys2Proof

/-! ### The five conditions as numbers -/

theorem field_toNat (v : Word) (start len : Nat) : (v.extractLsb' start len).toNat = v.toNat / 2 ^ start % 2 ^ len := by
  rw [BitVec.extractLsb'_toNat, Nat.shiftRight_eq_div_pow]

theorem opField_toNat (v : Word) : (opField v).toNat = v.toNat % 16 := by
  have h := field_toNat v 0 4
  rwa [pow_zero, Nat.div_one] at h

theorem nField_toNat (v : Word) : (nField v).toNat = v.toNat / 16 % 8 := field_toNat v 4 3

theorem reservedBit7_toNat (v : Word) : (reservedBit7 v).toNat = v.toNat / 128 % 2 := field_toNat v 7 1

theorem argField_toNat (v : Word) : (argField v).toNat = v.toNat / 256 % 256 := field_toNat v 8 8

theorem reservedHigh_toNat (v : Word) : (reservedHigh v).toNat = v.toNat / 65536 := by
  have hv : v.toNat / 2 ^ 16 < 2 ^ 48 := by have := v.isLt; omega
  exact (field_toNat v 16 48).trans (Nat.mod_eq_of_lt hv)

/-- R67's rule read off the word as a number. -/
theorem illegalCause_eq (v : Word) : illegalCause v =
    if 6 ≤ v.toNat % 16 then some .reservedOp
    else if v.toNat / 65536 ≠ 0 ∨ v.toNat / 128 % 2 ≠ 0 then some .reservedBits
    else if (v.toNat / 16 % 8 ≠ 0 ∧ v.toNat % 16 ≠ 1) ∨
        (v.toNat / 256 % 256 ≠ 0 ∧ v.toNat % 16 ≠ 3 ∧ v.toNat % 16 ≠ 4) then some .unusedField
    else if v.toNat % 16 = 1 ∧ 6 ≤ v.toNat / 16 % 8 then some .badCount
    else if v.toNat % 16 = 3 ∧ 36 ≤ v.toNat / 256 % 256 then some .badIndex
    else none := by
  simp [illegalCause, ← BitVec.toNat_inj, opField_toNat, nField_toNat, reservedBit7_toNat, argField_toNat,
    reservedHigh_toNat]

/-- A word that meets none of R67's conditions has a command. -/
theorem exists_decode_ok {v : Word} (h : illegalCause v = none) : ∃ i, decode v = .ok i := by
  cases hd : decode v with
  | ok i => exact ⟨i, rfl⟩
  | error c => rw [decode_error hd] at h; cases h

end Sys2Proof

namespace Sys2Proof.Machine

/-- Settles O5: `illegalCause` finds the first condition, and the step records its code or runs the word's command. -/
theorem writtenWordRunsOrRecordsItsFirstCause : Obligations.WrittenWordRunsOrRecordsItsFirstCause := by
  intro s v rest h op n arg c1 c2 c3 c4 c5 raised
  have hcause : illegalCause v =
      if c1 then some .reservedOp else if c2 then some .reservedBits else if c3 then some .unusedField
      else if c4 then some .badCount else if c5 then some .badIndex else none := illegalCause_eq v
  have raise : ∀ c : IllegalCause, illegalCause v = some c → raised c.code := fun c hc =>
    ⟨rest, none, step_illegal h (decode_of_illegalCause_some hc)⟩
  refine ⟨fun h1 => raise .reservedOp ?_, fun ⟨h1, h2⟩ => raise .reservedBits ?_,
    fun ⟨h1, h2, h3⟩ => raise .unusedField ?_, fun ⟨h1, h2, h3, h4⟩ => raise .badCount ?_,
    fun ⟨h1, h2, h3, h4, h5⟩ => raise .badIndex ?_, fun ⟨h1, h2, h3, h4, h5⟩ => ?_⟩
  · rw [hcause, if_pos h1]
  · rw [hcause, if_neg h1, if_pos h2]
  · rw [hcause, if_neg h1, if_neg h2, if_pos h3]
  · rw [hcause, if_neg h1, if_neg h2, if_neg h3, if_pos h4]
  · rw [hcause, if_neg h1, if_neg h2, if_neg h3, if_neg h4, if_pos h5]
  · rw [if_neg h1, if_neg h2, if_neg h3, if_neg h4, if_neg h5] at hcause
    obtain ⟨i, hd⟩ := exists_decode_ok hcause
    exact ⟨i, rest, none, hd, encode_of_decode hd, step_command h hd⟩

/-! ### Host statements -/

theorem setWidth_ofNat_of_lt {w n : Nat} (h : n < 2 ^ w) : (BitVec.ofNat w n).setWidth 64 = BitVec.ofNat 64 n := by
  apply BitVec.eq_of_toNat_eq
  rw [BitVec.toNat_setWidth, BitVec.toNat_ofNat, BitVec.toNat_ofNat, Nat.mod_eq_of_lt h]

/-- R72's word for `enc N`. -/
theorem encWord_eq_encode {n : Nat} (h : n ≤ 5) : encWord n = encode (.enc (BitVec.ofNat 3 n)) := by
  rw [encode, commandWord_eq_or, setWidth_ofNat_of_lt (by omega)]
  simp [encWord]

/-- R72's word for `lut I`. -/
theorem lutWord_eq_encode {i : Nat} (h : i ≤ 35) : lutWord i = encode (.lut (BitVec.ofNat 8 i)) := by
  rw [encode, commandWord_eq_or, setWidth_ofNat_of_lt (by omega)]
  simp [lutWord]

/-- R72's word for `rlut C`. -/
theorem rlutWord_eq_encode (c : Byte) : rlutWord c = encode (.rlut c) := by
  rw [encode, commandWord_eq_or]
  simp [rlutWord]

/-- Settles O52: the accesses are the definition's, and the words that R72 writes are the commands' encodings. -/
theorem hostStatementsStandForTheirAccesses : Obligations.HostStatementsStandForTheirAccesses := by
  intro base
  refine ⟨fun _ => rfl, fun _ => rfl, rfl, rfl, rfl, rfl, rfl, rfl, rfl, fun c => ?_, fun n => ?_, fun i => ?_,
    fun bs => ?_, fun _ => rfl, fun _ => rfl, fun bs k hk => lane_laneWord bs k hk⟩
  · rw [HostStmt.accesses, rlutWord_eq_encode]
  · rw [HostStmt.accesses]
    exact if_ctx_congr Iff.rfl (fun h => by rw [encWord_eq_encode h]) fun _ => rfl
  · rw [HostStmt.accesses]
    exact if_ctx_congr Iff.rfl (fun h => by rw [lutWord_eq_encode h]) fun _ => rfl
  · rw [HostStmt.accesses]
    exact if_ctx_congr Iff.rfl (fun h => by rw [encWord_eq_encode h]) fun _ => rfl

end Sys2Proof.Machine
end

section
/-! The alphabet ROM (40_alphabet.md): the reverse lookup as a position in the ROM (R82), both lookups by the characters' codes
(R21), what LUT and RLUT write (R80, R81), and the entries that ENC can reach (R84). -/

namespace Sys2Proof.Machine

/-! ### The reverse lookup -/

/-- The search loop of R82 finds the first position of the character, counted from `n`. -/
theorem searchFrom_eq_idxOf? (c : Byte) (es : List Byte) (n : Nat) :
    searchFrom c es n = (es.idxOf? c).map (· + n) := by
  induction es generalizing n with
  | nil => rfl
  | cons e es ih =>
    by_cases he : e = c
    · simp [searchFrom, List.idxOf?_cons, he]
    · simp [searchFrom, List.idxOf?_cons, he, ih, Function.comp_def, Nat.add_assoc, Nat.add_comm 1]

theorem rev_eq_idxOf? (c : Byte) : rev c = (Config.rom.idxOf? c).map (BitVec.ofNat 6) := by
  simp [rev, searchFrom_eq_idxOf?]

/-- No two positions of the ROM hold one character (R22). -/
theorem romEntry_injOn {j k : Nat} (hj : j < 36) (hk : k < 36) (h : romEntry j = romEntry k) : j = k := by
  rw [romEntry_eq_getElem hj, romEntry_eq_getElem hk] at h
  exact rom_nodup.getElem_inj_iff.mp h

/-- The only position of a character is its first. -/
theorem idxOf?_rom_eq_some_iff {c : Byte} {k : Nat} : Config.rom.idxOf? c = some k ↔ k < 36 ∧ romEntry k = c := by
  rw [List.idxOf?_eq_some_iff]
  constructor
  · rintro ⟨hk, he, -⟩
    exact ⟨hk, (romEntry_eq_getElem hk).trans he⟩
  · rintro ⟨hk, rfl⟩
    refine ⟨hk, (romEntry_eq_getElem hk).symm, fun j hj he => hj.ne ?_⟩
    exact romEntry_injOn (hj.trans hk) hk ((romEntry_eq_getElem (hj.trans hk)).trans he)

/-- A hit is the position of the entry equal to the code (R82). -/
theorem rev_eq_some_iff {c : Byte} {k : Index} : rev c = some k ↔ k.toNat < 36 ∧ romEntry k.toNat = c := by
  rw [rev_eq_idxOf?, ← idxOf?_rom_eq_some_iff]
  constructor
  · intro h
    obtain ⟨n, hn, rfl⟩ := Option.map_eq_some_iff.mp h
    obtain ⟨hlt, -⟩ := idxOf?_rom_eq_some_iff.mp hn
    rwa [BitVec.toNat_ofNat, Nat.mod_eq_of_lt (by omega)]
  · intro h
    simp [h]

/-- A character is no member exactly if no entry equals it (R13). -/
theorem isMember_eq_false_iff {c : Byte} : isMember c = false ↔ ∀ k < 36, romEntry k ≠ c := by
  rw [← Bool.not_eq_true, isMember_iff_mem_rom, List.mem_iff_getElem, not_exists]
  refine forall_congr' fun k => ?_
  rw [not_exists]
  exact forall_congr' fun hk => by rw [romEntry_eq_getElem hk]

/-- Settles O21: the search finds the only position of a listed character. -/
theorem reverseLookupFindsTheEntry : Obligations.ReverseLookupFindsTheEntry :=
  ⟨fun _ _ => rev_eq_some_iff, fun _ => isMember_eq_false_iff, fun _ => revIndex_of_not_isMember⟩

/-! ### The lookups by code -/

theorem rev_eq_indexByCode (c : Byte) : rev c = (indexByCode c).map (BitVec.ofNat 6) := by
  rw [rev_eq_none_or_index, indexByCode]
  split_ifs <;> rfl

theorem isMember_eq_indexByCode (c : Byte) : isMember c = (indexByCode c).isSome := by
  rw [isMember, rev_eq_indexByCode, Option.isSome_map]

theorem indexByCode_lt {c : Byte} {k : Nat} (h : indexByCode c = some k) : k < 36 := by
  unfold indexByCode at h
  split_ifs at h <;> cases h <;> omega

/-- The index that RLUT puts in DOUT (R81). -/
theorem indexWord_revIndex (c : Byte) : indexWord (revIndex c) = BitVec.ofNat 64 ((indexByCode c).getD 0) := by
  rw [revIndex, rev_eq_indexByCode]
  cases h : indexByCode c with
  | none => rfl
  | some k =>
    have hk := indexByCode_lt h
    exact setWidth_ofNat_of_lt (by omega)

/-- Settles O22: the codes of members are those of lower-case letters and digits. -/
theorem matchingIsExact : Obligations.MatchingIsExact := by
  intro c hc
  have hcode : indexByCode c = none := by rw [indexByCode, if_neg (by omega), if_neg (by omega)]
  have hrev : rev c = none := by rw [rev_eq_indexByCode, hcode, Option.map_none]
  exact ⟨hrev, by rw [revIndex, hrev, Option.getD_none]⟩

/-- The code of the character at a position: letters from `'a'`, then digits from `'0'` (R21). -/
def codeByIndex (i : Nat) : Nat := if i < 26 then 0x61 + i else 0x30 + (i - 26)

theorem romEntry_eq_codeByIndex : ∀ i < 36, romEntry i = BitVec.ofNat 8 (codeByIndex i) := by decide

/-- The character that LUT puts in DOUT (R80). -/
theorem byteWord_romEntry {i : Nat} (h : i < 36) : byteWord (romEntry i) = BitVec.ofNat 64 (codeByIndex i) := by
  rw [romEntry_eq_codeByIndex i h]
  refine setWidth_ofNat_of_lt ?_
  unfold codeByIndex
  split <;> omega

/-! ### LUT and RLUT -/

theorem exec_lut {i : Byte} (s : State) (h : i.toNat < 36) :
    exec (.lut i) s = .next (writeResult (byteWord (romEntry i.toNat)) 1 0 true false s) :=
  if_pos h

theorem exec_lut_of_badIndex {i : Byte} (s : State) (h : 36 ≤ i.toNat) :
    exec (.lut i) s = .next (takeIllegal .badIndex s) :=
  if_neg (Nat.not_lt.mpr h)

theorem exec_rlut (c : Byte) (s : State) :
    exec (.rlut c) s =
      .next (writeResult (indexWord (revIndex c)) (if isMember c then 1 else 0) 0 (isMember c) false s) :=
  rfl

/-- A LUT word with an index past the ROM meets R67's fifth condition and none before it. -/
theorem decode_encode_lut_of_badIndex {i : Byte} (h : 36 ≤ i.toNat) : decode (encode (.lut i)) = .error .badIndex := by
  apply decode_of_illegalCause_some
  simp [illegalCause, encode, h]

/-- Settles O19: a legal index reads the ROM, and any other raises the exception that the decoder names. -/
theorem lutReturnsTheCharacter : Obligations.LutReturnsTheCharacter := by
  intro i s
  refine ⟨fun h => ?_, fun h => ⟨exec_lut_of_badIndex s h, decode_encode_lut_of_badIndex h⟩⟩
  rw [exec_lut s h, byteWord_romEntry h]
  rfl

/-- Settles O20: the index, LEN and HIT of the reverse lookup are those that the code gives. -/
theorem rlutReturnsTheIndex : Obligations.RlutReturnsTheIndex := by
  intro c s
  rw [exec_rlut, indexWord_revIndex, isMember_eq_indexByCode]
  cases indexByCode c <;> rfl

/-! ### The entries that ENC reaches -/

/-- Lane `k` of a token below its width is the character of symbol `k` (R105). -/
theorem lane_encodeGroup {r k : Nat} (din : Word) (h : k < tokenWidth r) :
    lane (encodeGroup r din) k = fwd (symbolAt (groupValue r din) k) := by
  have hk : k < 8 := h.trans_le (tokenWidth_le r)
  rw [encodeGroup, lane_ofLanes _ _ hk, if_pos h]

/-- A symbol has 5 bits, so its character is none of the entries from 32 on. -/
theorem fwd_ne_romEntry (x : Symbol) {k : Nat} (h32 : 32 ≤ k) (hk : k < 36) : fwd x ≠ romEntry k := by
  intro he
  have hx : x.toNat < 32 := x.isLt
  have hxk : x.toNat = k := romEntry_injOn (by omega) hk he
  omega

/-- R84 for one character: it is one of the first 32 entries, and the other four are `'6'` to `'9'`. -/
theorem fwd_reachable (x : Symbol) :
    (∃ j < 32, fwd x = romEntry j) ∧ fwd x ≠ 0x36 ∧ fwd x ≠ 0x37 ∧ fwd x ≠ 0x38 ∧ fwd x ≠ 0x39 :=
  ⟨fwd_eq_entry x, fwd_ne_romEntry x (k := 32) (by decide) (by decide),
    fwd_ne_romEntry x (k := 33) (by decide) (by decide), fwd_ne_romEntry x (k := 34) (by decide) (by decide),
    fwd_ne_romEntry x (k := 35) (by decide) (by decide)⟩

/-- Settles O29: each lane below the width is a symbol's character. -/
theorem encEmitsReachableEntriesOnly : Obligations.EncEmitsReachableEntriesOnly := by
  intro n s hn
  refine ⟨_, exec_enc n s hn, fun k hk => ?_⟩
  rw [writeResult_dout, lane_encodeGroup s.din hk]
  exact fwd_reachable _

end Sys2Proof.Machine
end

section
/-! ENC (41_encoder.md): what it answers and the lanes it writes (R100, R104 to R106), the group value as arithmetic on DIN
(R101, R102), which lanes of DIN it reads (R107), the symbols by shifts and masks (R103), and the padding bits of a tail
(R108). -/

namespace Sys2Proof.Machine

/-! ### The answer, its lanes and its STATUS -/

/-- Settles O23: the table by evaluation, and the two bounds for each of its counts. -/
theorem tokenWidths : Obligations.TokenWidths := by
  refine ⟨rfl, rfl, rfl, rfl, rfl, rfl, fun r h1 h5 => ?_⟩
  interval_cases r <;> decide

theorem exec_enc_of_badCount {n : BitVec 3} (s : State) (h : 6 ≤ n.toNat) :
    exec (.enc n) s = .next (takeIllegal .badCount s) :=
  if_neg (Nat.not_le.mpr h)

/-- A lane of a token at or past its width is the terminator (R105). -/
theorem lane_encodeGroup_of_ge {r k : Nat} (din : Word) (hk : k < 8) (h : tokenWidth r ≤ k) :
    lane (encodeGroup r din) k = 0x00 :=
  (resultShape_enc r din false).lane_eq_zero k hk h

/-- No symbol's character is the terminator, which is no member. -/
theorem fwd_ne_zero (x : Symbol) : fwd x ≠ 0x00 := by
  intro h
  have hx : isMember (fwd x) = true := isMember_fwd x
  rw [h] at hx
  exact absurd hx (by decide)

/-- Settles O26: a full group has no lane past its width, an empty one no lane below it. -/
theorem encOutputLanes : Obligations.EncOutputLanes := by
  intro n s hn
  refine ⟨_, exec_enc n s hn, fun k hk => ⟨lane_encodeGroup s.din hk, rfl⟩,
    fun k hk hw => lane_encodeGroup_of_ge s.din hk hw, fun h5 k hk => ?_, fun h0 => ?_⟩
  · have hw : k < tokenWidth n.toNat := by rwa [h5]
    rw [writeResult_dout, lane_encodeGroup s.din hw]
    exact fwd_ne_zero _
  · refine word_ext_lanes fun k hk => ?_
    have hw : tokenWidth n.toNat ≤ k := by rw [h0]; exact Nat.zero_le k
    exact (lane_encodeGroup_of_ge s.din hk hw).trans (lane_zero k).symm

/-- Settles O25: the fields are those of the written result, and the low half of the word is made of them. -/
theorem encStatus : Obligations.EncStatus := by
  intro n s hn
  refine ⟨_, exec_enc n s hn, toNat_ofNat_four (tokenWidth_le _), rfl, rfl, decide_eq_true_iff, rfl, rfl, ?_⟩
  rw [statusWord_low, writeResult_status, withResult_len, withResult_tlen, withResult_hit, withResult_last]
  generalize n.toNat = r at hn
  interval_cases r <;> rfl

/-! ### The group value -/

theorem lane_toNat (w : Word) (k : Nat) : (lane w k).toNat = w.toNat / 2 ^ (8 * k) % 256 := field_toNat w (8 * k) 8

theorem groupByte_toNat (r : Nat) (din : Word) (j : Nat) :
    (groupByte r din j).toNat = if j < r then din.toNat / 2 ^ (8 * j) % 256 else 0 := by
  rw [groupByte, apply_ite BitVec.toNat, lane_toNat]
  rfl

/-- A byte appended on the right is the least significant (R101). -/
theorem toNat_append_byte {w : Nat} (x : BitVec w) (b : Byte) : (x ++ b).toNat = x.toNat * 2 ^ 8 + b.toNat := by
  rw [BitVec.toNat_append, ← Nat.shiftLeft_add_eq_or_of_lt b.isLt, Nat.shiftLeft_eq]

/-- The group value is the sum of its bytes, each weighted by its place (R101). -/
theorem groupValue_toNat (r : Nat) (din : Word) :
    (groupValue r din).toNat =
      (groupByte r din 0).toNat * 2 ^ 32 + (groupByte r din 1).toNat * 2 ^ 24 + (groupByte r din 2).toNat * 2 ^ 16 +
        (groupByte r din 3).toNat * 2 ^ 8 + (groupByte r din 4).toNat := by
  have happend : (groupValue r din).toNat = BitVec.toNat (w := 8 + 8 + 8 + 8 + 8)
      (groupByte r din 0 ++ groupByte r din 1 ++ groupByte r din 2 ++ groupByte r din 3 ++ groupByte r din 4) := rfl
  rw [happend]
  simp only [toNat_append_byte]
  omega

/-- Symbol `k` is the 5-bit digit at bit `35 - 5k` (R102). -/
theorem symbolAt_toNat (v : Group) (k : Nat) : (symbolAt v k).toNat = v.toNat / 2 ^ (35 - 5 * k) % 32 := by
  rw [symbolAt, BitVec.extractLsb'_toNat, Nat.shiftRight_eq_div_pow]

/-- Settles O27: the weighted sum of the bytes, with each byte a digit of DIN or 0. -/
theorem groupValueIsMostSignificantFirst : Obligations.GroupValueIsMostSignificantFirst := by
  intro r din _
  refine ⟨?_, fun k _ => symbolAt_toNat _ k⟩
  simp only [groupValue_toNat, groupByte_toNat, Nat.mul_zero, pow_zero, Nat.div_one, Nat.reduceMul]

/-! ### The lanes that ENC reads -/

theorem groupByte_congr {r : Nat} {d e : Word} (h : ∀ k < r, lane d k = lane e k) : groupByte r d = groupByte r e :=
  funext fun j => if_ctx_congr Iff.rfl (fun hj => h j hj) fun _ => rfl

/-- ENC of `r` bytes reads the first `r` lanes of DIN and no others (R107 (c)). -/
theorem encodeGroup_congr {r : Nat} {d e : Word} (h : ∀ k < r, lane d k = lane e k) :
    encodeGroup r d = encodeGroup r e := by
  rw [encodeGroup, encodeGroup, groupValue, groupValue, groupByte_congr h]

/-- Settles O28: DIN reaches the result through `encodeGroup` alone. -/
theorem encIgnoresLanesPastTheCount : Obligations.EncIgnoresLanesPastTheCount := by
  intro n s d hn h
  exact ⟨_, _, exec_enc n s hn, exec_enc n { s with din := d } hn, encodeGroup_congr h, rfl⟩

/-! ### Shifts and masks -/

/-- Bit `i` of R103's row `k` is the group's bit `35 - 5k + i`, whatever the bytes, and only the low 5 bits are used. -/
theorem shiftMaskSymbol_getLsbD (b : Nat → Byte) {k i : Nat} (hk : k < 8) (hi : i < 8) :
    (shiftMaskSymbol b k).getLsbD i =
      (decide (i < 5) && (b (4 - (35 - 5 * k + i) / 8)).getLsbD ((35 - 5 * k + i) % 8)) := by
  interval_cases k
  all_goals interval_cases i <;> simp [shiftMaskSymbol]

/-- Each row of R103's table is the window of the group value that R102 names. -/
theorem shiftMaskSymbol_groupByte (r : Nat) (din : Word) {k : Nat} (hk : k < 8) :
    shiftMaskSymbol (groupByte r din) k = (symbolAt (groupValue r din) k).setWidth 8 := by
  apply BitVec.eq_of_getLsbD_eq
  intro i hi
  rw [shiftMaskSymbol_getLsbD _ hk hi, BitVec.getLsbD_setWidth, decide_eq_true hi, Bool.true_and]
  by_cases h5 : i < 5
  · rw [symbolAt_getLsbD r din k i hk h5, decide_eq_true h5, Bool.true_and]
  · rw [BitVec.getLsbD_of_ge _ i (Nat.not_lt.mp h5), decide_eq_false h5, Bool.false_and]

/-- The ROM entry of a symbol by shifts and masks is the symbol's character. -/
theorem romEntry_shiftMaskSymbol (r : Nat) (din : Word) {k : Nat} (hk : k < 8) :
    romEntry (shiftMaskSymbol (groupByte r din) k).toNat = fwd (symbolAt (groupValue r din) k) := by
  rw [shiftMaskSymbol_groupByte r din hk, BitVec.toNat_setWidth_of_le (by decide), fwd]

/-- Settles O24: the written result lane by lane, and the exception of a count past 5. -/
theorem encFollowsShiftsAndMasks : Obligations.EncFollowsShiftsAndMasks := by
  intro n s
  refine ⟨fun hn => ⟨_, exec_enc n s hn, fun k hk => ?_, rfl⟩, exec_enc_of_badCount s⟩
  split_ifs with hw
  · exact (lane_encodeGroup s.din hw).trans (romEntry_shiftMaskSymbol n.toNat s.din hk).symm
  · exact lane_encodeGroup_of_ge s.din hk (Nat.not_lt.mp hw)

/-! ### Windows over present and absent bytes -/

theorem groupByte_of_lt {r j : Nat} (din : Word) (h : j < r) : groupByte r din j = lane din j := if_pos h

theorem groupByte_of_ge {r j : Nat} (din : Word) (h : r ≤ j) : groupByte r din j = 0x00 := if_neg (Nat.not_lt.mpr h)

/-- A symbol whose window covers present bytes only is that of a full group (R108). -/
theorem symbolAt_of_present {r k : Nat} (din : Word) (hr : r ≤ 5) (hw : 5 * k + 5 ≤ 8 * r) :
    symbolAt (groupValue r din) k = symbolAt (groupValue 5 din) k := by
  apply BitVec.eq_of_getLsbD_eq
  intro i hi
  have hk : k < 8 := by omega
  rw [symbolAt_getLsbD r din k i hk hi, symbolAt_getLsbD 5 din k i hk hi, groupByte_of_lt din (by omega),
    groupByte_of_lt din (by omega)]

/-- A symbol whose window ends `p` bits past the last present byte is the `q` low bits of that byte above `p` zeros (R108). -/
theorem symbolAt_of_padded {r k q p : Nat} (din : Word) (hr : r ≤ 4) (hqp : q + p = 5) (hq : 0 < q)
    (hw : 5 * k + q = 8 * r) :
    symbolAt (groupValue r din) k = ((lane din (r - 1)).extractLsb' 0 q ++ 0#p).cast hqp := by
  apply BitVec.eq_of_getLsbD_eq
  intro i hi
  rw [symbolAt_getLsbD r din k i (by omega) hi, BitVec.getLsbD_cast, BitVec.getLsbD_append]
  by_cases hip : i < p
  · rw [groupByte_of_ge din (by omega)]
    simp [hip]
  · have hpresent : 4 - (35 - 5 * k + i) / 8 = r - 1 := by omega
    have hbit : (35 - 5 * k + i) % 8 = i - p := by omega
    have hq' : i - p < q := by omega
    rw [hpresent, hbit, groupByte_of_lt din (by omega)]
    simp [hip, hq']

/-- The window of an emitted position lies in the present bytes except for the last position of a tail (R108). -/
theorem window_present_iff {r k : Nat} (h1 : 1 ≤ r) (h4 : r ≤ 4) (hk : k < tokenWidth r) :
    5 * k + 5 ≤ 8 * r ↔ k + 1 < tokenWidth r := by
  interval_cases r
  all_goals
    rw [tokenWidth] at hk ⊢
    omega

/-- Settles O30: the four padded windows, and every other emitted position by its window. -/
theorem tailPaddingBitsAreZero : Obligations.TailPaddingBitsAreZero := by
  intro din
  refine ⟨symbolAt_of_padded (q := 3) (p := 2) din (by decide) rfl (by decide) rfl,
    symbolAt_of_padded (q := 1) (p := 4) din (by decide) rfl (by decide) rfl,
    symbolAt_of_padded (q := 4) (p := 1) din (by decide) rfl (by decide) rfl,
    symbolAt_of_padded (q := 2) (p := 3) din (by decide) rfl (by decide) rfl, fun r k h1 h4 hk => ?_⟩
  have hiff := window_present_iff h1 h4 hk
  exact ⟨hiff, fun hlast => symbolAt_of_present din (h4.trans (by decide)) (hiff.mpr hlast)⟩

end Sys2Proof.Machine
end

section
/-! DEC (42_decoder.md): the token length (R121) and the byte count (R125), what DEC answers and the lanes it writes (R120, R126,
R127), what of DIN it reads (R129, R130), the bytes by shifts and masks (R124), and DEC after ENC (R131). -/

namespace Sys2Proof.Machine

/-! ### The token length and the byte count -/

/-- A lane below the token length holds a member (R121). -/
theorem isMember_of_lt_tokenLength {d : Word} {k : Nat} (h : k < tokenLength d) : isMember (lane d k) = true := by
  rw [← lanes_getD d k (h.trans_le (tokenLength_le d))]
  obtain ⟨hmembers, -⟩ := leadingMembers_spec (lanes d)
  exact hmembers k h

/-- The lane at a token length below 8 holds no member (R121). -/
theorem isMember_at_tokenLength {d : Word} (h : tokenLength d < 8) : isMember (lane d (tokenLength d)) = false := by
  rw [← lanes_getD d _ h]
  obtain ⟨-, hnone⟩ := leadingMembers_spec (lanes d)
  exact hnone h

/-- Settles O31: the leading members of the eight lanes. -/
theorem tokenLengthIsTheFirstNonMember : Obligations.TokenLengthIsTheFirstNonMember :=
  fun din => ⟨tokenLength_le din, fun _ => isMember_of_lt_tokenLength, isMember_at_tokenLength⟩

/-- Membership up to and at the token length determines it (R130). -/
theorem tokenLength_congr {d e : Word}
    (h : ∀ k < 8, k ≤ tokenLength e → isMember (lane d k) = isMember (lane e k)) : tokenLength d = tokenLength e := by
  refine tokenLength_unique d _ (tokenLength_le e) (fun k hk => ?_) (fun h8 => ?_)
  · rw [h k (hk.trans_le (tokenLength_le e)) hk.le]
    exact isMember_of_lt_tokenLength hk
  · rw [h _ h8 le_rfl]
    exact isMember_at_tokenLength h8

/-- Settles O32: the table by evaluation, the thresholds from the formula `5L / 8`. -/
theorem byteCounts : Obligations.ByteCounts := by
  refine ⟨rfl, rfl, rfl, rfl, rfl, rfl, rfl, rfl, rfl, fun l hl => ?_⟩
  rw [byteCount_eq l hl]
  omega

/-! ### The answer, its lanes and its STATUS -/

theorem exec_dec (s : State) :
    exec .dec s = .next (writeResult (decodeToken s.din) (byteCount (tokenLength s.din)) (tokenLength s.din) false
      (decide (tokenLength s.din < 8)) s) :=
  rfl

/-- Lane `j` of DOUT below the byte count is byte `j` of the token value (R126). -/
theorem lane_decodeToken {d : Word} {j : Nat} (h : j < byteCount (tokenLength d)) :
    lane (decodeToken d) j = byteAt (tokenValue d) j := by
  have hj : j < 8 := h.trans_le ((byteCount_le _).trans (by decide))
  rw [decodeToken, lane_ofLanes _ _ hj, if_pos h]

/-- A lane of DOUT at or past the byte count is 0 (R126). -/
theorem lane_decodeToken_of_ge (d : Word) {j : Nat} (hj : j < 8) (h : byteCount (tokenLength d) ≤ j) :
    lane (decodeToken d) j = 0x00 :=
  (resultShape_dec d).lane_eq_zero j hj h

/-- Settles O35: the byte count is at most 5, so lanes 5 to 7 lie past it. -/
theorem decOutputLanes : Obligations.DecOutputLanes := by
  intro s
  have hcount : byteCount (tokenLength s.din) ≤ 5 := byteCount_le _
  exact ⟨_, exec_dec s, fun j hj => lane_decodeToken hj, fun j hj h => lane_decodeToken_of_ge s.din hj h,
    lane_decodeToken_of_ge s.din (by decide) hcount, lane_decodeToken_of_ge s.din (by decide) (hcount.trans (by decide)),
    lane_decodeToken_of_ge s.din (by decide) (hcount.trans (by decide))⟩

/-- Settles O34: the fields are those of the written result, and the low half of the word is made of them. -/
theorem decStatus : Obligations.DecStatus := by
  intro s
  have hl : tokenLength s.din ≤ 8 := tokenLength_le s.din
  refine ⟨_, exec_dec s, toNat_ofNat_four ((byteCount_le _).trans (by decide)), toNat_ofNat_four hl, rfl,
    decide_eq_true_iff, rfl, rfl, ?_⟩
  rw [statusWord_low, writeResult_status, withResult_len, withResult_tlen, withResult_hit, withResult_last]
  generalize tokenLength s.din = l at hl
  interval_cases l <;> rfl

/-! ### What of DIN DEC reads -/

theorem tokenSymbol_of_ge {d : Word} {k : Nat} (h : tokenLength d ≤ k) : tokenSymbol d k = 0 := if_neg (Nat.not_lt.mpr h)

/-- Two tokens of one length whose characters have the same low 5 index bits give one DOUT and one STATUS (R121, R122). -/
theorem exec_dec_congr (s : State) {d : Word} (ht : tokenLength d = tokenLength s.din)
    (h : ∀ k < tokenLength s.din, (revIndex (lane d k)).setWidth 5 = (revIndex (lane s.din k)).setWidth 5) :
    ∃ t u, exec .dec s = .next t ∧ exec .dec { s with din := d } = .next u ∧ u.dout = t.dout ∧ u.status = t.status := by
  refine ⟨_, _, exec_dec s, exec_dec { s with din := d }, decodeToken_congr ht h, ?_⟩
  simp only [writeResult_status, ht]

/-- Settles O36: the token ends at the same lane, and the lanes below it are the same. -/
theorem decIgnoresLanesPastTheFirstNonMember : Obligations.DecIgnoresLanesPastTheFirstNonMember := by
  intro s d h
  have ht : tokenLength d = tokenLength s.din := tokenLength_congr fun k hk hle => by rw [h k hk hle]
  refine ⟨ht, fun k => tokenSymbol_of_ge, exec_dec_congr s ht fun k hk => ?_⟩
  rw [h k (hk.trans_le (tokenLength_le _)) hk.le]

/-- A character and the one that decodes like it are both members or both none, with the same low 5 index bits (R129). -/
theorem aliasOf_decodes_alike (c : Byte) :
    isMember (aliasOf c) = isMember c ∧ (revIndex (aliasOf c)).setWidth 5 = (revIndex c).setWidth 5 := by
  unfold aliasOf
  split_ifs with hc
  · obtain rfl | rfl | rfl | rfl : c = 0x36 ∨ c = 0x37 ∨ c = 0x38 ∨ c = 0x39 := by bv_omega
    all_goals decide
  · exact ⟨rfl, rfl⟩

/-- Settles O37: the four lookups by evaluation; a token and the one with the replaced characters have the same length and the
same symbols. -/
theorem unreachableMembersDecodeLikeTheFirstFour : Obligations.UnreachableMembersDecodeLikeTheFirstFour := by
  refine ⟨by decide, by decide, by decide, by decide, by decide, by decide, by decide, by decide, fun s d h => ?_⟩
  have ht : tokenLength d = tokenLength s.din := tokenLength_congr fun k hk _ => by
    obtain ⟨hmember, -⟩ := aliasOf_decodes_alike (lane s.din k)
    rw [h k hk, hmember]
  refine exec_dec_congr s ht fun k hk => ?_
  obtain ⟨-, hsymbol⟩ := aliasOf_decodes_alike (lane s.din k)
  rw [h k (hk.trans_le (tokenLength_le _)), hsymbol]

/-! ### Shifts and masks -/

/-- Bit `i` of byte `j` of a token value is bit `32 - 8j + i` of it, in the symbol that holds this bit (R123). -/
theorem byteAt_tokenValue_getLsbD (d : Word) {j i : Nat} (hi : i < 8) :
    (byteAt (tokenValue d) j).getLsbD i =
      (tokenSymbol d (7 - (32 - 8 * j + i) / 5)).getLsbD ((32 - 8 * j + i) % 5) := by
  rw [byteAt, BitVec.getLsbD_extractLsb', tokenValue_getLsbD d _ (by omega), decide_eq_true hi, Bool.true_and]

/-- Bit `i` of R124's row `j` is the token value's bit `32 - 8j + i`, whatever the symbols. -/
theorem shiftMaskByte_getLsbD (x : Nat → Symbol) {j i : Nat} (hj : j < 5) (hi : i < 8) :
    (shiftMaskByte (fun k => (x k).setWidth 8) j).getLsbD i =
      (x (7 - (32 - 8 * j + i) / 5)).getLsbD ((32 - 8 * j + i) % 5) := by
  interval_cases j
  all_goals interval_cases i <;> simp [shiftMaskByte]

/-- Each row of R124's table is the byte of the token value that R123 names. -/
theorem shiftMaskByte_tokenSymbol (d : Word) {j : Nat} (hj : j < 5) :
    shiftMaskByte (fun k => (tokenSymbol d k).setWidth 8) j = byteAt (tokenValue d) j := by
  apply BitVec.eq_of_getLsbD_eq
  intro i hi
  rw [shiftMaskByte_getLsbD _ hj hi, byteAt_tokenValue_getLsbD d hi]

/-- The low 5 bits of a character's index, by its code (R21, R122). -/
theorem setWidth_revIndex (c : Byte) :
    ((revIndex c).setWidth 5).setWidth 8 = BitVec.ofNat 8 ((indexByCode c).getD 0 % 32) := by
  rw [revIndex, rev_eq_indexByCode]
  cases indexByCode c with
  | none => rfl
  | some k =>
    apply BitVec.eq_of_toNat_eq
    simp

/-- A token's symbol by the codes of its characters (R122). -/
theorem setWidth_tokenSymbol (d : Word) (k : Nat) :
    (tokenSymbol d k).setWidth 8 =
      if k < tokenLength d then BitVec.ofNat 8 ((indexByCode (lane d k)).getD 0 % 32) else 0 := by
  rw [tokenSymbol]
  split_ifs
  · exact setWidth_revIndex _
  · rfl

/-- Settles O33: the written result lane by lane, each byte by its row of the table. -/
theorem decFollowsShiftsAndMasks : Obligations.DecFollowsShiftsAndMasks := by
  intro s
  refine ⟨_, exec_dec s, fun j hj => ?_, rfl⟩
  simp only [← setWidth_tokenSymbol]
  split_ifs with hc
  · exact (lane_decodeToken hc).trans (shiftMaskByte_tokenSymbol s.din (hc.trans_le (byteCount_le _))).symm
  · exact lane_decodeToken_of_ge s.din hj (Nat.not_lt.mp hc)

/-! ### DEC after ENC -/

/-- A token of W(r) characters stands for `r` bytes (R104, R125). -/
theorem byteCount_tokenWidth {r : Nat} (h : r ≤ 5) : byteCount (tokenWidth r) = r := by
  interval_cases r <;> rfl

/-- The bytes of a group are those of the token that ENC makes of it: bit `p` of the group value is bit `p` of the token value
wherever it belongs to a present byte, because W(r) characters cover all `8r` bits (R104). -/
theorem byteAt_encodeGroup {r j : Nat} (d : Word) (hr : r ≤ 5) (hj : j < r) :
    byteAt (tokenValue (encodeGroup r d)) j = lane d j := by
  obtain ⟨-, -, -, -, -, -, hleast⟩ := tokenWidths
  obtain ⟨hcover, -⟩ := hleast r (by omega) hr
  rw [← groupByte_of_lt d hj]
  apply BitVec.eq_of_getLsbD_eq
  intro i hi
  obtain ⟨p, hp⟩ : ∃ p, p = 32 - 8 * j + i := ⟨_, rfl⟩
  have hsymbol : 35 - 5 * (7 - p / 5) + p % 5 = p := by omega
  have hbyte : 4 - p / 8 = j := by omega
  have hbit : p % 8 = i := by omega
  rw [byteAt_tokenValue_getLsbD _ hi, ← hp, tokenSymbol_encodeGroup r d _ (by omega),
    symbolAt_getLsbD r d _ _ (by omega) (by omega), hsymbol, hbyte, hbit]

/-- Settles O38: the emitted token has the length W(r), which stands for `r` bytes, and its bytes are the group's. -/
theorem decInvertsEnc : Obligations.DecInvertsEnc := by
  intro n s hn
  have hlength : tokenLength (encodeGroup n.toNat s.din) = tokenWidth n.toNat := tokenLength_encodeGroup _ _
  have hcount : byteCount (tokenWidth n.toNat) = n.toNat := byteCount_tokenWidth hn
  refine ⟨_, _, exec_enc n s hn, exec_dec _, ?_, ?_, hcount, fun j hj => ?_⟩
  · simpa only [writeResult_status, withResult_tlen, writeResult_dout, hlength] using toNat_ofNat_four (tokenWidth_le _)
  · simpa only [writeResult_status, withResult_len, writeResult_dout, hlength, hcount] using toNat_ofNat_four (by omega)
  · rw [writeResult_dout, writeResult_dout, lane_decodeToken (by rwa [hlength, hcount]),
      byteAt_encodeGroup s.din hn hj]

end Sys2Proof.Machine
end

section
/-! NOP and CLR (43_control.md): the causes that reject a word of a command without operands (R140, R141), what the step of the
legal word leaves, and what the step of an illegal one keeps (R172). -/

namespace Sys2Proof

/-! ### Words of a command without operands -/

theorem reservedBit7_ne_zero_iff (v : Word) : reservedBit7 v ≠ 0 ↔ v.getLsbD 7 = true := by
  have hbit : (reservedBit7 v).getLsbD 0 = v.getLsbD 7 := by simp [reservedBit7]
  rw [← hbit]
  generalize reservedBit7 v = b
  decide +revert

/-- NOP, DEC and CLR take no operand, so a word with their OP that is not their own word has a reserved bit set or a value in
a field that they do not use (R67). -/
theorem illegalCause_of_ne_commandWord {v : Word} (hop : opField v = 0 ∨ opField v = 2 ∨ opField v = 5)
    (hne : v ≠ commandWord (opField v) 0 0) :
    illegalCause v = some (if reservedHigh v ≠ 0 ∨ reservedBit7 v ≠ 0 then .reservedBits else .unusedField) := by
  have hrow : ¬ 6 ≤ (opField v).toNat ∧ opField v ≠ 1 ∧ opField v ≠ 3 ∧ opField v ≠ 4 := by
    obtain h | h | h := hop
    all_goals
      rw [h]
      decide
  obtain ⟨h6, h1, h3, h4⟩ := hrow
  rw [illegalCause, if_neg h6]
  by_cases hreserved : reservedHigh v ≠ 0 ∨ reservedBit7 v ≠ 0
  · rw [if_pos hreserved, if_pos hreserved]
  · have hused : nField v ≠ 0 ∨ argField v ≠ 0 := by
      by_contra! hzero
      obtain ⟨hn, ha⟩ := hzero
      obtain ⟨hhigh, h7⟩ : reservedHigh v = 0 ∧ reservedBit7 v = 0 := by simpa using hreserved
      exact hne (word_ext_fields (by simpa using hhigh) (by simpa using ha) (by simpa using h7) (by simpa using hn)
        (by simp))
    rw [if_neg hreserved, if_neg hreserved, if_pos (hused.imp (⟨·, h1⟩) (⟨·, h3, h4⟩))]

/-- The decoder's answer to such a word, its reserved bits by their places (R64). -/
theorem decode_of_ne_commandWord {v : Word} {op : BitVec 4} (hv : opField v = op) (hop : op = 0 ∨ op = 2 ∨ op = 5)
    (hne : v ≠ commandWord op 0 0) :
    decode v = .error (if v.extractLsb' 16 48 ≠ 0 ∨ v.getLsbD 7 = true then .reservedBits else .unusedField) := by
  subst hv
  simp only [← reservedBit7_ne_zero_iff]
  exact decode_of_illegalCause_some (illegalCause_of_ne_commandWord hop hne)

end Sys2Proof

namespace Sys2Proof.Machine

/-! ### NOP and CLR -/

/-- An illegal word sets ERR and keeps DOUT, DIN and the result fields (R172). -/
theorem step_illegal_frame {s : State} {v : Word} {c : IllegalCause} {rest : List HostEvent}
    (h : s.AboutTo .cmd (some v) rest) (hd : decode v = .error c) :
    ∃ t, step s = .next t ∧ t.dout = s.dout ∧ t.din = s.din ∧ t.status.err = true ∧ t.status.len = s.status.len ∧
      t.status.tlen = s.status.tlen ∧ t.status.hit = s.status.hit ∧ t.status.last = s.status.last :=
  ⟨_, step_illegal h hd, rfl, rfl, withIllegal_err _ _, withIllegal_len _ _, withIllegal_tlen _ _, withIllegal_hit _ _,
    withIllegal_last _ _⟩

/-- Settles O17: word 5 decodes to CLR, whose `exec` clears; any other word with OP 5 has a cause, and its exception clears
nothing. -/
theorem clrClearsDoutAndStatus : Obligations.ClrClearsDoutAndStatus := by
  have hlegal : decode 0x5 = .ok .clr := decode_encode (i := .clr) rfl
  have hillegal (v : Word) (hop : v.extractLsb' 0 4 = 0x5) (hne : v ≠ 0x5) := decode_of_ne_commandWord hop (by decide) hne
  refine ⟨fun s => rfl, rfl, hlegal, fun s rest h => ?_, hillegal, fun s v rest hop hne h => ?_⟩
  · exact ⟨rest, none, step_command h hlegal⟩
  · exact step_illegal_frame h (hillegal v hop hne)

/-- Settles O16: word 0 decodes to NOP, whose `exec` keeps the state that holds the word; any other word with OP 0 has a
cause. -/
theorem nopHasNoEffect : Obligations.NopHasNoEffect := by
  have hlegal : decode 0x0 = .ok .nop := decode_encode (i := .nop) rfl
  refine ⟨fun s => rfl, rfl, hlegal, rfl, fun s rest h => ?_, fun v hop hne => ?_⟩
  · exact ⟨rest, none, step_command h hlegal⟩
  · exact decode_of_ne_commandWord hop (by decide) hne

end Sys2Proof.Machine
end

section
/-! The stream functions (45_stream.md): the encoding group by group and the decoding token by token, their lengths (R151, R154),
the characters of an encoding (R157), where decoding stops (R153), the round trip (R155), and the capacities that hold the
results (R160, R161). -/

namespace Sys2Proof.Machine

/-! ### The lists of a token's characters and bytes -/

/-- The first lanes of a word, in stream order (R45). -/
theorem take_lanes {n : Nat} (w : Word) (h : n ≤ 8) : (lanes w).take n = (List.range n).map (lane w) := by
  have hlanes : lanes w = (List.range 8).map (lane w) := rfl
  rw [hlanes, ← List.map_take, List.take_range, Nat.min_eq_left h]

/-- The characters of an emitted token (R105). -/
theorem encTok_eq (g : List Byte) :
    encTok g = (List.range (tokenWidth g.length)).map fun k => fwd (symbolAt (groupValue g.length (laneWord g)) k) := by
  rw [encTok, take_lanes _ (tokenWidth_le _)]
  exact List.map_congr_left fun k hk => lane_encodeGroup _ (List.mem_range.mp hk)

/-- The bytes of a decoded token (R126). -/
theorem decTok_eq (t : Word) : decTok t = (List.range (byteCount (tokenLength t))).map (byteAt (tokenValue t)) := by
  rw [decTok, take_lanes _ ((byteCount_le _).trans (by decide))]
  exact List.map_congr_left fun j hj => lane_decodeToken (List.mem_range.mp hj)

/-- An emitted token loaded into eight lanes is ENC's DOUT, which has 0 past the token (R105). -/
theorem laneWord_encTok (g : List Byte) : laneWord (encTok g) = encodeGroup g.length (laneWord g) := by
  refine word_ext_lanes fun k hk => ?_
  rw [lane_laneWord _ _ hk, encTok_eq, List.getD_eq_getElem?_getD, List.getElem?_map]
  rcases Nat.lt_or_ge k (tokenWidth g.length) with hw | hw
  · rw [List.getElem?_range hw, lane_encodeGroup _ hw]
    rfl
  · rw [List.getElem?_eq_none (by simpa using hw), lane_encodeGroup_of_ge _ hk hw]
    rfl

/-- A terminator past the last character changes no lane. -/
theorem laneWord_terminated (bs : List Byte) : laneWord (bs ++ [0x00]) = laneWord bs := by
  refine word_ext_lanes fun k hk => ?_
  rw [lane_laneWord _ _ hk, lane_laneWord _ _ hk]
  rcases Nat.lt_trichotomy k bs.length with h | rfl | h
  · rw [List.getD_append _ _ _ _ h]
  · simp
  · rw [List.getD_eq_default _ _ (by simpa using h), List.getD_eq_default _ _ h.le]

/-- DEC after ENC gives the group back (R131). -/
theorem decTok_encodeGroup {g : List Byte} (h : g.length ≤ 5) : decTok (encodeGroup g.length (laneWord g)) = g := by
  rw [decTok_eq, tokenLength_encodeGroup, byteCount_tokenWidth h]
  refine List.ext_getElem (by simp) fun j _ hj => ?_
  rw [List.getElem_map, List.getElem_range, byteAt_encodeGroup _ h hj, lane_laneWord _ _ (by omega),
    List.getD_eq_getElem _ _ hj]

/-- Tokens of one length with the same characters decode alike (R130). -/
theorem decTok_congr {d e : Word} (ht : tokenLength d = tokenLength e) (h : ∀ k < tokenLength e, lane d k = lane e k) :
    decTok d = decTok e := by
  rw [decTok, decTok, ht, decodeToken_congr ht fun k hk => by rw [h k hk]]

/-! ### Encode, group by group -/

/-- R150's groups: every group but the last is full. -/
theorem group_induction {P : List Byte → Prop} (nil : P [])
    (group : ∀ g rest, g ≠ [] → g.length ≤ 5 → (g.length < 5 → rest = []) → P rest → P (g ++ rest)) (d : List Byte) :
    P d := by
  induction hn : d.length using Nat.strong_induction_on generalizing d with
  | _ n ih =>
    by_cases hd : d = []
    · exact hd ▸ nil
    · have hpos : 0 < d.length := List.length_pos_iff.mpr hd
      rw [← List.take_append_drop 5 d]
      refine group _ _ (by simp [hd]) (by simp) (fun h => ?_) (ih (d.drop 5).length ?_ _ rfl)
      · rw [List.length_take] at h
        exact List.drop_eq_nil_of_le (by omega)
      · rw [List.length_drop]
        omega

/-- A group and the rest (R150). -/
theorem encodeStream_append {g rest : List Byte} (hg : g ≠ []) (h5 : g.length ≤ 5) (hfull : g.length < 5 → rest = []) :
    encodeStream (g ++ rest) = encTok g ++ encodeStream rest := by
  rw [encodeStream_eq _ (List.append_ne_nil_of_left_ne_nil hg rest)]
  rcases Nat.lt_or_eq_of_le h5 with h | h
  · obtain rfl := hfull h
    rw [List.append_nil, List.take_of_length_le h5, List.drop_eq_nil_of_le h5]
  · rw [List.take_left' h, List.drop_left' h]

/-- A tail is encoded as its one group is, and a full group adds a token of 8 characters (R151). -/
theorem encodedLength_append {r n : Nat} (hr : r ≤ 5) (hfull : r < 5 → n = 0) :
    encodedLength (r + n) = tokenWidth r + encodedLength n := by
  rcases Nat.lt_or_eq_of_le hr with h | rfl
  · obtain rfl := hfull h
    interval_cases r <;> rfl
  · rw [encodedLength, encodedLength, show (5 + n) / 5 = n / 5 + 1 by omega, Nat.add_mod_left, tokenWidth]
    · omega
    all_goals simp

theorem encodeStream_length (d : List Byte) : (encodeStream d).length = encodedLength d.length := by
  induction d using group_induction with
  | nil => rfl
  | group g rest hg h5 hfull ih =>
    rw [encodeStream_append hg h5 hfull, List.length_append, List.length_append, encTok_length, ih,
      encodedLength_append h5 fun h => by rw [hfull h, List.length_nil]]

/-- Settles O47: the length grows group by group as the formula does. -/
theorem encodedLengthFormula : Obligations.EncodedLengthFormula := encodeStream_length

/-- Every character of an encoding is a symbol's (R105). -/
theorem exists_fwd_of_mem_encodeStream {d : List Byte} {c : Byte} (h : c ∈ encodeStream d) : ∃ x, fwd x = c := by
  induction d using group_induction with
  | nil => simp [encodeStream_nil] at h
  | group g rest hg h5 hfull ih =>
    rw [encodeStream_append hg h5 hfull, encTok_eq, List.mem_append, List.mem_map] at h
    obtain ⟨k, -, hk⟩ | h := h
    · exact ⟨_, hk⟩
    · exact ih h

/-- Settles O49: a symbol has 5 bits, so its character is one of the first 32 entries. -/
theorem streamAlphabetIsClosed : Obligations.StreamAlphabetIsClosed := by
  intro d c hc
  obtain ⟨x, rfl⟩ := exists_fwd_of_mem_encodeStream hc
  exact fwd_reachable x

/-! ### Decode, token by token -/

theorem leadingMembers_take (s : List Byte) (n : Nat) : leadingMembers (s.take n) = min n (leadingMembers s) := by
  induction s generalizing n with
  | nil => simp [leadingMembers]
  | cons c s ih =>
    cases n with
    | zero => simp [leadingMembers]
    | succ n =>
      simp only [List.take_succ_cons, leadingMembers, ih]
      split <;> omega

theorem leadingMembers_cons_of_not_isMember {c : Byte} (h : isMember c = false) (rest : List Byte) :
    leadingMembers (c :: rest) = 0 := by
  simp [leadingMembers, h]

theorem leadingMembers_eq_length {cs : List Byte} (h : ∀ c ∈ cs, isMember c = true) : leadingMembers cs = cs.length := by
  simpa [leadingMembers] using leadingMembers_append cs [] h

/-- The token length of characters loaded into lanes is the number of their leading members (R121). -/
theorem tokenLength_laneWord {t : List Byte} (h : t.length ≤ 8) : tokenLength (laneWord t) = leadingMembers t := by
  obtain ⟨hmembers, hnone⟩ := leadingMembers_spec t
  have hle : leadingMembers t ≤ t.length := leadingMembers_le t
  refine tokenLength_unique _ _ (hle.trans h) (fun k hk => ?_) fun h8 => ?_
  · rw [lane_laneWord _ _ (by omega), hmembers k hk]
  · rw [lane_laneWord _ _ h8]
    rcases Nat.lt_or_ge (leadingMembers t) t.length with hlt | hge
    · exact hnone hlt
    · rw [List.getD_eq_default _ _ hge]
      exact isMember_zero

theorem tokenLength_laneWord_take (s : List Byte) : tokenLength (laneWord (s.take 8)) = min 8 (leadingMembers s) := by
  rw [tokenLength_laneWord (by simp), leadingMembers_take]

/-- R153's tokens: full ones of 8 members, then one of fewer leading members. -/
theorem token_induction {P : List Byte → Prop} (last : ∀ s, leadingMembers s < 8 → P s)
    (full : ∀ t rest, t.length = 8 → (∀ c ∈ t, isMember c = true) → P rest → P (t ++ rest)) (s : List Byte) : P s := by
  induction hn : s.length using Nat.strong_induction_on generalizing s with
  | _ n ih =>
    rcases Nat.lt_or_ge (leadingMembers s) 8 with h | h
    · exact last s h
    · have hle : leadingMembers s ≤ s.length := leadingMembers_le s
      rw [← List.take_append_drop 8 s]
      refine full _ _ (by rw [List.length_take]; omega) (fun c hc => ?_) (ih (s.drop 8).length ?_ _ rfl)
      · obtain ⟨hmembers, -⟩ := leadingMembers_spec s
        obtain ⟨k, hk, rfl⟩ := List.mem_take_iff_getElem.mp hc
        rw [← List.getD_eq_getElem s 0, hmembers k (by omega)]
      · rw [List.length_drop]
        omega

/-- A token of fewer than 8 leading members is the last (R153). -/
theorem decodeStream_of_lt {s : List Byte} (h : leadingMembers s < 8) :
    decodeStream s = decTok (laneWord (s.take 8)) := by
  rw [decodeStream_eq, tokenLength_laneWord_take, if_pos (by omega)]

/-- A token of 8 members and the rest (R153). -/
theorem decodeStream_append {t : List Byte} (rest : List Byte) (h8 : t.length = 8) (hm : ∀ c ∈ t, isMember c = true) :
    decodeStream (t ++ rest) = decTok (laneWord t) ++ decodeStream rest := by
  rw [decodeStream_eq, List.take_left' h8, List.drop_left' h8, tokenLength_laneWord h8.le, leadingMembers_eq_length hm,
    if_neg (by omega)]

theorem decodeStream_length (s : List Byte) : (decodeStream s).length = decodedLength (leadingMembers s) := by
  induction s using token_induction with
  | last s h =>
    rw [decodeStream_of_lt h, decTok_length, tokenLength_laneWord_take, Nat.min_eq_right h.le, byteCount_eq _ h.le,
      decodedLength]
  | full t rest h8 hm ih =>
    rw [decodeStream_append rest h8 hm, List.length_append, decTok_length, tokenLength_laneWord h8.le,
      leadingMembers_append _ _ hm, leadingMembers_eq_length hm, byteCount_eq _ h8.le, ih, decodedLength, decodedLength]
    omega

/-- Settles O50: the length grows by 5 bytes for each full token, and the last token adds its byte count. -/
theorem decodedLengthFormula : Obligations.DecodedLengthFormula := by
  intro s _
  have hlength : (decodeStream s).length = 5 * leadingMembers s / 8 := decodeStream_length s
  refine ⟨?_, hlength⟩
  rw [hlength, byteCount_eq _ (by omega)]
  omega

theorem leadingMembers_append_cons {cs : List Byte} (hcs : ∀ x ∈ cs, isMember x = true) {c : Byte} (hc : isMember c = false)
    (rest : List Byte) : leadingMembers (cs ++ c :: rest) = cs.length := by
  rw [leadingMembers_append _ _ hcs, leadingMembers_cons_of_not_isMember hc, Nat.add_zero]

/-- The lanes below a string's end hold its characters, whatever follows it (R45). -/
theorem lane_laneWord_take_append {cs : List Byte} {k : Nat} (hk : k < cs.length) (h8 : k < 8) (rest : List Byte) :
    lane (laneWord ((cs ++ rest).take 8)) k = cs[k] := by
  rw [lane_laneWord _ _ h8, List.getD_eq_getElem?_getD, List.getElem?_take_of_lt h8, List.getElem?_append_left hk,
    List.getElem?_eq_getElem hk, Option.getD_some]

/-- Two non-members behind the same members: full tokens are split off, and the last token ends at the non-member (R153). -/
theorem decodeStream_congr_of_not_isMember {cs : List Byte} (hcs : ∀ x ∈ cs, isMember x = true) {c e : Byte}
    (hc : isMember c = false) (he : isMember e = false) (rest rest' : List Byte) :
    decodeStream (cs ++ c :: rest) = decodeStream (cs ++ e :: rest') := by
  induction cs using token_induction with
  | last cs h =>
    have hlc : leadingMembers (cs ++ c :: rest) = cs.length := leadingMembers_append_cons hcs hc rest
    have hle : leadingMembers (cs ++ e :: rest') = cs.length := leadingMembers_append_cons hcs he rest'
    have h8 : cs.length < 8 := by rwa [leadingMembers_eq_length hcs] at h
    rw [decodeStream_of_lt (by omega), decodeStream_of_lt (by omega)]
    refine decTok_congr (by rw [tokenLength_laneWord_take, tokenLength_laneWord_take, hlc, hle]) fun k hk => ?_
    rw [tokenLength_laneWord_take, hle] at hk
    rw [lane_laneWord_take_append (by omega) (by omega), lane_laneWord_take_append (by omega) (by omega)]
  | full t cs h8 hm ih =>
    rw [List.append_assoc, List.append_assoc, decodeStream_append _ h8 hm, decodeStream_append _ h8 hm,
      ih fun x hx => hcs x (List.mem_append_right t hx)]

/-- Settles O51: the terminator is one of the non-members. -/
theorem decodingStopsAtTheFirstNonMember : Obligations.DecodingStopsAtTheFirstNonMember :=
  fun _ rest _ hcs hc => decodeStream_congr_of_not_isMember hcs hc isMember_zero rest []

/-! ### The round trip -/

/-- Every character of an emitted token is a member (R105). -/
theorem isMember_of_mem_encTok {g : List Byte} {c : Byte} (h : c ∈ encTok g) : isMember c = true := by
  rw [encTok_eq, List.mem_map] at h
  obtain ⟨k, -, rfl⟩ := h
  exact isMember_fwd _

/-- A tail's token, which the terminator ends, decodes to the tail (R131). -/
theorem decodeStream_encTok_terminated {g : List Byte} (h : g.length < 5) : decodeStream (encTok g ++ [0x00]) = g := by
  have h8 : (encTok g).length < 8 := by
    rw [encTok_length]
    generalize g.length = r at h
    interval_cases r <;> decide
  have hmembers : leadingMembers (encTok g) = (encTok g).length := leadingMembers_eq_length fun _ => isMember_of_mem_encTok
  rw [decodeStream_of_lt (by simpa [hmembers] using h8), List.take_of_length_le (by simpa using h8), laneWord_terminated,
    laneWord_encTok, decTok_encodeGroup h.le]

/-- A full group's token decodes to the group, apart from what follows (R131). -/
theorem decodeStream_encTok_append {g : List Byte} (h : g.length = 5) (rest : List Byte) :
    decodeStream (encTok g ++ rest) = g ++ decodeStream rest := by
  have h8 : (encTok g).length = 8 := by rw [encTok_length, h]; rfl
  rw [decodeStream_append rest h8 fun _ => isMember_of_mem_encTok, laneWord_encTok, decTok_encodeGroup h.le]

/-- Settles O48: DEC inverts each group's token, a full one split off and a tail's ended by the terminator. -/
theorem streamRoundTrip : Obligations.StreamRoundTrip := by
  intro d
  induction d using group_induction with
  | nil => decide
  | group g rest hg h5 hfull ih =>
    rw [encodeStream_append hg h5 hfull, List.append_assoc]
    rcases Nat.lt_or_eq_of_le h5 with h | h
    · obtain rfl := hfull h
      rw [encodeStream_nil, List.nil_append, List.append_nil, decodeStream_encTok_terminated h]
    · rw [decodeStream_encTok_append h, ih]

/-! ### Capacities -/

theorem encodedLength_succ_le_encodeCapacity (n : Nat) : encodedLength n + 1 ≤ encodeCapacity n := by
  have htail : tailChars (n % 5) ≤ n % 5 * 8 / 5 + 1 := by
    have h : n % 5 < 5 := Nat.mod_lt n (by decide)
    generalize n % 5 = e at h
    interval_cases e <;> decide
  rw [encodedLength, encodeCapacity]
  omega

theorem decodeStream_terminated_length (cs : List Byte) :
    (decodeStream (cs ++ [0x00])).length = decodedLength (leadingMembers cs) :=
  (decodeStream_length _).trans (congrArg decodedLength (leadingMembers_terminated cs))

/-- Settles O55: R151's and R154's lengths against the capacities. -/
theorem capacitiesSuffice : Obligations.CapacitiesSuffice := by
  refine ⟨fun d => ⟨encodeStream_length d, ?_⟩, fun cs _ => ⟨decodeStream_terminated_length cs, ?_⟩, fun cs hcs => ?_⟩
  · rw [encodeStream_length]
    exact encodedLength_succ_le_encodeCapacity _
  · have hle : leadingMembers cs ≤ cs.length := leadingMembers_le cs
    rw [decodeStream_terminated_length, decodedLength, decodeCapacity]
    omega
  · rw [decodeStream_terminated_length, leadingMembers_eq_length hcs, decodedLength, decodeCapacity, Nat.mul_comm]

end Sys2Proof.Machine
end

section
/-! The host's memory by regions, and the buffer contract (45_stream.md R162, R163). -/

namespace Sys2Proof.Machine

/-! ### Regions of the host's memory -/

/-- Memory holds a concatenation where it holds the two parts, one behind the other. -/
theorem HostMem.holds_append {m : HostMem} {a : Nat} {bs cs : List Byte} :
    m.holds a (bs ++ cs) ↔ m.holds a bs ∧ m.holds (a + bs.length) cs := by
  constructor
  · intro h
    refine ⟨fun k hk => ?_, fun k hk => ?_⟩
    · rw [h k (by rw [List.length_append]; omega), List.getElem?_append_left hk]
    · rw [Nat.add_assoc, h (bs.length + k) (by rw [List.length_append]; omega),
        List.getElem?_append_right (Nat.le_add_right _ _), Nat.add_sub_cancel_left]
  · rintro ⟨hbs, hcs⟩ k hk
    rw [List.length_append] at hk
    rcases Nat.lt_or_ge k bs.length with h | h
    · rw [hbs k h, List.getElem?_append_left h]
    · obtain ⟨j, rfl⟩ := Nat.exists_eq_add_of_le h
      rw [← Nat.add_assoc, hcs j (by omega), List.getElem?_append_right h, Nat.add_sub_cancel_left]

/-- Room for `n + k` bytes is room for `n` and for `k` behind them. -/
theorem HostMem.room_add {m : HostMem} {a n k : Nat} (h : m.room a (n + k)) : m.room a n ∧ m.room (a + n) k := by
  refine ⟨fun j hj => h j (by omega), fun j hj => ?_⟩
  rw [Nat.add_assoc]
  exact h (n + j) (by omega)

/-- The `n` addresses from `a` on and the `k` addresses from `b` on have none in common. -/
def Apart (a n b k : Nat) : Prop := ∀ i < n, ∀ j < k, a + i ≠ b + j

/-- Parts of regions that are apart are apart. -/
theorem Apart.mono {a n b k a' n' b' k' : Nat} (h : Apart a n b k) (ha : a ≤ a') (hn : a' + n' ≤ a + n) (hb : b ≤ b')
    (hk : b' + k' ≤ b + k) : Apart a' n' b' k' := by
  intro i hi j hj he
  exact h (a' - a + i) (by omega) (b' - b + j) (by omega) (by omega)

/-- `m'` is `m` with the byte sequence `bs` stored from `a` on. -/
def HostMem.Stored (m m' : HostMem) (a : Nat) (bs : List Byte) : Prop :=
  ∀ x, m'.read x = if a ≤ x ∧ x < a + bs.length then bs[x - a]? else m.read x

namespace HostMem.Stored

variable {m m' m'' : HostMem} {a : Nat} {bs : List Byte} (h : m.Stored m' a bs)
include h

/-- What is stored is held. -/
theorem holds : m'.holds a bs := fun k hk => by
  rw [h, if_pos (by omega), Nat.add_sub_cancel_left]

/-- Every byte outside the region stays. -/
theorem read_eq {x : Nat} (hx : x < a ∨ a + bs.length ≤ x) : m'.read x = m.read x := by
  rw [h, if_neg (by omega)]

/-- A byte sequence apart from the region stays. -/
theorem holds_of_apart {b : Nat} {cs : List Byte} (hm : m.holds b cs) (ha : Apart b cs.length a bs.length) :
    m'.holds b cs := fun k hk => by
  have hx : b + k < a ∨ a + bs.length ≤ b + k := by
    by_contra! hc
    exact ha k hk (b + k - a) (by omega) (by omega)
  rw [h.read_eq hx, hm k hk]

/-- A store unmaps nothing. -/
theorem room {b n : Nat} (hm : m.room b n) : m'.room b n := fun k hk => by
  rw [h]
  split_ifs with hx
  · rw [List.getElem?_eq_getElem (by omega), Option.isSome_some]
  · exact hm k hk

/-- Two stores, one behind the other, are one. -/
theorem append {cs : List Byte} (h' : m'.Stored m'' (a + bs.length) cs) : m.Stored m'' a (bs ++ cs) := by
  intro x
  rw [h' x, h x, List.length_append]
  split_ifs with h₁ h₂ h₃
  · rw [List.getElem?_append_right (by omega), Nat.sub_add_eq]
  · omega
  · rw [List.getElem?_append_left (by omega)]
  · omega
  · omega
  · rfl

end HostMem.Stored

/-- Where there is room, a byte is stored. -/
theorem exists_memWrite_stored {m : HostMem} {a : Nat} (v : Byte) (h : m.room a 1) :
    ∃ m', memWrite m a v = .ok m' ∧ m.Stored m' a [v] := by
  have hroom : (m.write a v).isSome = true := by
    rw [HostMem.write_isSome]
    exact h 0 Nat.one_pos
  obtain ⟨m', hm'⟩ := Option.isSome_iff_exists.mp hroom
  refine ⟨m', by simp only [memWrite, hm'], fun x => ?_⟩
  rw [HostMem.read_write hm']
  by_cases hx : x = a
  · subst hx
    simp
  · rw [if_neg hx, if_neg (by rw [List.length_singleton]; omega)]

/-! ### The buffer contract -/

/-- A buffer that suffices is reused in place (R163). -/
theorem reserve_of_sufficient {need a : Nat} {b : HostBuffer} (ha : b.address = some a) (h : need ≤ b.capacity)
    (alloc : Option Nat) : reserve need alloc b = some (a, b) := by
  simp only [reserve, ha, if_pos h]

/-- An absent or insufficient buffer is replaced by the allocator's answer (R163). -/
theorem reserve_of_insufficient {need : Nat} {b : HostBuffer} (h : b.address = none ∨ b.capacity < need)
    (alloc : Option Nat) : reserve need alloc b = alloc.map fun a => (a, { address := some a, capacity := need }) := by
  cases ha : b.address with
  | none => cases alloc <;> simp only [reserve, ha] <;> rfl
  | some a =>
    have hlt : b.capacity < need := h.resolve_left (by simp [ha])
    cases alloc <;> simp only [reserve, ha, if_neg (Nat.not_le.mpr hlt)] <;> rfl

/-- Settles O57: the two answers of `reserve`. -/
theorem sufficientBufferIsReused : Obligations.SufficientBufferIsReused :=
  fun _ _ _ => ⟨reserve_of_sufficient, fun h a' => ⟨_, reserve_of_insufficient h (some a'), rfl, le_rfl⟩⟩

/-- A byte of a released buffer is no longer mapped (log 14). -/
theorem read_release_of_mem {b : HostBuffer} {a x : Nat} (m : HostMem) (ha : b.address = some a) (h₁ : a ≤ x)
    (h₂ : x < a + b.capacity) : (b.release m).read x = none := by
  rw [HostBuffer.release, ha]
  exact (HostMem.read_unmap m a b.capacity x).trans (if_neg (by omega))

/-- A byte outside a released buffer stays. -/
theorem read_release_of_not_mem {b : HostBuffer} {x : Nat} (m : HostMem)
    (h : ∀ a, b.address = some a → x < a ∨ a + b.capacity ≤ x) : (b.release m).read x = m.read x := by
  cases ha : b.address with
  | none => simp only [HostBuffer.release, ha]
  | some a =>
    simp only [HostBuffer.release, ha]
    exact (HostMem.read_unmap m a b.capacity x).trans (if_pos (h a ha))

/-- `strlen` counts the characters before the terminator. -/
theorem strLength_of_holds {m : HostMem} {a n : Nat} {cs : List Byte} (hc : ∀ c ∈ cs, c ≠ 0x00)
    (h : m.holds a (cs ++ [0x00])) (hn : cs.length < n) : strLength m a n = .ok cs.length := by
  induction cs generalizing a n with
  | nil =>
    obtain ⟨n, rfl⟩ := Nat.exists_eq_add_one.mpr (Nat.zero_lt_of_lt hn)
    have hread : m.read a = some 0x00 := h 0 (by simp)
    simp only [strLength, memRead, hread]
    rfl
  | cons c cs ih =>
    obtain ⟨n, rfl⟩ := Nat.exists_eq_add_one.mpr (Nat.zero_lt_of_lt hn)
    have hread : m.read a = some c := h 0 (by simp)
    have hne : c ≠ Config.terminator := hc c (by simp)
    have htail : m.holds (a + 1) (cs ++ [0x00]) := ((HostMem.holds_append (bs := [c])).mp h).2
    have ih := ih (fun x hx => hc x (by simp [hx])) htail (by simpa using hn)
    simp only [strLength, memRead, hread, ih, bind, Except.bind, if_neg hne, List.length_cons]

/-- Without a buffer from the allocator `encode` answers failure and runs no command (R162). -/
theorem encodeInto_of_alloc_failure {size : Nat} {b : HostBuffer} (data : Nat) (h : HostRun)
    (hb : b.address = none ∨ b.capacity < encodeCapacity size) :
    encodeInto data size none b h = .ok ({ h with mem := b.release h.mem }, HostBuffer.released, .failed) := by
  simp only [encodeInto, reserve_of_insufficient hb, Option.map_none]

/-- Without a buffer from the allocator `decode` measures the string, answers failure and runs no command (R162). -/
theorem decodeInto_of_alloc_failure {str : Nat} {cs : List Byte} {b : HostBuffer} {h : HostRun} (hc : ∀ c ∈ cs, c ≠ 0x00)
    (hm : h.mem.holds str (cs ++ [0x00])) (hb : b.address = none ∨ b.capacity < decodeCapacity cs.length) :
    decodeInto str none b h = .ok ({ h with mem := b.release h.mem }, HostBuffer.released, .failed) := by
  have hlength : cs.length + 1 ≤ h.mem.length := by simpa using length_le_of_holds _ _ _ hm
  have hstr := strLength_of_holds hc hm (n := h.mem.length + 1) (by omega)
  simp only [decodeInto, hstr, bind, Except.bind, reserve_of_insufficient hb, Option.map_none]

/-- Settles O56: both procedures release the buffer before any command, and a negative sentinel is no length. -/
theorem allocationFailureReleasesTheBuffer : Obligations.AllocationFailureReleasesTheBuffer := by
  intro h b failed
  have hreleased : failed (.ok ({ h with mem := b.release h.mem }, HostBuffer.released, .failed)) :=
    ⟨_, rfl, fun _ _ => read_release_of_mem h.mem, fun _ => read_release_of_not_mem h.mem⟩
  refine ⟨fun data size hb => ?_, fun str cs hc hm hb => ?_, fun failSentinel n hneg => ?_⟩
  · rwa [encodeInto_of_alloc_failure data h hb]
  · rwa [decodeInto_of_alloc_failure hc hm hb]
  · simp only [HostResult.signal]
    omega

end Sys2Proof.Machine
end

section
/-! HostEncode and HostDecode, run on the block (45_stream.md R158, R159, R164): one turn of each loop, the loop by induction on
the groups or tokens, and the terminator behind what it stored. -/

namespace Sys2Proof.Machine

/-! ### A command between the host's accesses -/

/-- The host's accesses leave ERR, the reset input and whatever else is pending as they were. -/
structure KeepsErrAndHost (s t : State) : Prop where
  reset_eq : t.resetAsserted = s.resetAsserted
  err_eq : t.status.err = s.status.err
  pending_eq : t.pending = s.pending

theorem KeepsErrAndHost.trans {s t u : State} (h : KeepsErrAndHost s t) (h' : KeepsErrAndHost t u) : KeepsErrAndHost s u where
  reset_eq := h'.reset_eq.trans h.reset_eq
  err_eq := h'.err_eq.trans h.err_eq
  pending_eq := h'.pending_eq.trans h.pending_eq

section Accesses

variable {s : State} (hreset : s.resetAsserted = false)
include hreset

theorem hostWrite_din (v : Word) : hostWrite .din v s = .ok { s with din := v, returned := none } :=
  hostWrite_eq .din v s _ hreset rfl

/-- The write of a command's word runs the command. -/
theorem hostWrite_command {i : Instr} {t : State} (hw : i.wf = true)
    (he : exec i { s with cmd := encode i, returned := none } = .next t) : hostWrite .cmd (encode i) s = .ok t := by
  refine hostWrite_eq .cmd (encode i) s t hreset ?_
  rw [writeReg, writeCmd, decode_encode hw]
  exact he

end Accesses

/-- DIN loaded and a result command written to CMD: the result stands in DOUT and STATUS (R68, R158, R159). -/
theorem exists_hostWrite_din_command {i : Instr} {s : State} {d dout : Word} {l m : Nat} {hit last : Bool}
    (hreset : s.resetAsserted = false) (hw : i.wf = true)
    (he : ∀ t : State, t.din = d → exec i t = .next (writeResult dout l m hit last t)) :
    ∃ s₁ s₂, hostWrite .din d s = .ok s₁ ∧ hostWrite .cmd (encode i) s₁ = .ok s₂ ∧ KeepsErrAndHost s s₂ ∧
      s₂.dout = dout ∧ s₂.status = s.status.withResult l m hit last :=
  ⟨_, _, hostWrite_din hreset d, hostWrite_command (s := { s with din := d, returned := none }) hreset hw (he _ rfl),
    ⟨rfl, rfl, rfl⟩, rfl, rfl⟩

/-- The LEN field read from STATUS is the written length (R28). -/
theorem readReg_status_len {s : State} {t : Status} {l m : Nat} {hit last : Bool} (hl : l ≤ 8)
    (hs : s.status = t.withResult l m hit last) : ((readReg .status s).extractLsb' 0 4).toNat = l := by
  rw [readReg, statusWord_len, hs, withResult_len, toNat_ofNat_four hl]

/-- The LAST field read from STATUS is the written flag (R31). -/
theorem readReg_status_last {s : State} {t : Status} {l m : Nat} {hit last : Bool}
    (hs : s.status = t.withResult l m hit last) : (readReg .status s).getLsbD 9 = last := by
  rw [readReg, statusWord_last, hs, withResult_last]

/-! ### HostEncode -/

/-- One turn of R158's loop encodes one group, stores its token and issues one command. -/
theorem encodeLoop_group {data size out k p o : Nat} {g : List Byte} {h : HostRun} {m : HostMem}
    (hreset : h.block.resetAsserted = false) (hp : p < size) (hlen : min 5 (size - p) = g.length)
    (hread : h.mem.holds (data + p) g) (hwrite : writeBytes h.mem (out + o) (encTok g) = .ok m) :
    ∃ s, KeepsErrAndHost h.block s ∧
      encodeLoop data size out (k + 1) p o h =
        encodeLoop data size out k (p + g.length) (o + (encTok g).length)
          { mem := m, block := s, commands := h.commands + 1 } := by
  have h5 : g.length ≤ 5 := by omega
  have hcount : (BitVec.ofNat 3 g.length).toNat = g.length := by
    rw [BitVec.toNat_ofNat, Nat.mod_eq_of_lt (by omega)]
  have hexec : ∀ t : State, t.din = laneWord g → exec (.enc (BitVec.ofNat 3 g.length)) t =
      .next (writeResult (encodeGroup g.length (laneWord g)) (tokenWidth g.length) 0 false (decide (g.length < 5)) t) := by
    intro t ht
    rw [exec_enc _ t (by rwa [hcount]), hcount, ht]
  have hwf : (Instr.enc (BitVec.ofNat 3 g.length)).wf = true := decide_eq_true (by rwa [hcount])
  obtain ⟨s₁, s₂, hdin, hcmd, hkeep, hdout, hstatus⟩ := exists_hostWrite_din_command hreset hwf hexec
  have hreset₂ : s₂.resetAsserted = false := hkeep.reset_eq.trans hreset
  have hlength : ((readReg .status { s₂ with returned := some (readReg .dout s₂) }).extractLsb' 0 4).toNat =
      tokenWidth g.length := readReg_status_len (tokenWidth_le _) hstatus
  have htoken : (lanes (readReg .dout s₂)).take (tokenWidth g.length) = encTok g := by rw [readReg, hdout, encTok]
  refine ⟨{ s₂ with returned := some (readReg .status s₂) }, hkeep.trans ⟨rfl, rfl, rfl⟩, ?_⟩
  simp only [encodeLoop, if_pos hp, hlen, readBytes_of_holds _ _ _ hread, hdin, hcmd, hostRead_eq .dout s₂ hreset₂,
    hostRead_eq .status { s₂ with returned := some (readReg .dout s₂) } hreset₂, hlength, htoken, hwrite, encTok_length,
    bind, Except.bind]
  rfl

/-- R158's loop over the groups from byte `p` on stores their encoding from `out + o` on, one command for each group. -/
theorem encodeLoop_eq {data out p o : Nat} {d : List Byte} {h : HostRun} (hreset : h.block.resetAsserted = false)
    (hholds : h.mem.holds (data + p) d) (hroom : h.mem.room (out + o) (encodeStream d).length)
    (hapart : Apart (data + p) d.length (out + o) (encodeStream d).length) :
    ∃ h', encodeLoop data (p + d.length) out (groupCount d.length) p o h = .ok (h', o + (encodeStream d).length) ∧
      h.mem.Stored h'.mem (out + o) (encodeStream d) ∧ h'.commands = h.commands + groupCount d.length ∧
      KeepsErrAndHost h.block h'.block := by
  induction d using group_induction generalizing p o h with
  | nil => exact ⟨h, rfl, fun x => (if_neg (by rw [encodeStream_nil, List.length_nil]; omega)).symm, rfl, rfl, rfl, rfl⟩
  | group g rest hg h5 hfull ih =>
    have hpos : 0 < g.length := List.length_pos_iff.mpr hg
    have hempty : g.length < 5 → rest.length = 0 := fun hlt => by rw [hfull hlt, List.length_nil]
    have hcount : groupCount (g.length + rest.length) = groupCount rest.length + 1 := by
      unfold groupCount
      omega
    rw [encodeStream_append hg h5 hfull] at hroom hapart ⊢
    simp only [List.length_append] at hroom hapart ⊢
    obtain ⟨hholdsGroup, hholdsRest⟩ := HostMem.holds_append.mp hholds
    obtain ⟨hroomGroup, hroomRest⟩ := HostMem.room_add hroom
    obtain ⟨m, hwrite, hstored : h.mem.Stored m (out + o) (encTok g)⟩ := writeBytes_of_room _ _ _ hroomGroup
    obtain ⟨s, hkeep, hturn⟩ := encodeLoop_group (size := p + (g.length + rest.length)) (k := groupCount rest.length)
      hreset (by omega) (by omega) hholdsGroup hwrite
    rw [hcount, hturn]
    obtain ⟨h', hloop, hstored', hcommands : h'.commands = h.commands + 1 + _, hkeep'⟩ := ih (p := p + g.length)
      (o := o + (encTok g).length) (h := { mem := m, block := s, commands := h.commands + 1 })
      (hkeep.reset_eq.trans hreset)
      (hstored.holds_of_apart (by rwa [← Nat.add_assoc]) (hapart.mono (by omega) (by omega) (by omega) (by omega)))
      (hstored.room (by rwa [← Nat.add_assoc])) (hapart.mono (by omega) (by omega) (by omega) (by omega))
    refine ⟨h', ?_, ?_, ?_, hkeep.trans hkeep'⟩
    · rw [← Nat.add_assoc, hloop, Nat.add_assoc]
    · exact hstored.append (by rwa [Nat.add_assoc])
    · omega

/-- Storing the terminator behind what a loop stored (R152, R159). -/
theorem exists_memWrite_terminator {m m' : HostMem} {out : Nat} {bs : List Byte} (hroom : m.room out (bs.length + 1))
    (hstored : m.Stored m' out bs) :
    ∃ m'', memWrite m' (out + bs.length) Config.terminator = .ok m'' ∧ m''.holds out (bs ++ [0x00]) ∧
      ∀ a, a < out ∨ out + bs.length < a → m''.read a = m.read a := by
  obtain ⟨-, hlast⟩ := HostMem.room_add hroom
  obtain ⟨m'', hwrite, hstored'⟩ := exists_memWrite_stored Config.terminator (hstored.room hlast)
  have hall : m.Stored m'' out (bs ++ [0x00]) := hstored.append hstored'
  exact ⟨m'', hwrite, hall.holds, fun a ha => hall.read_eq (by rw [List.length_append, List.length_singleton]; omega)⟩

/-- Settles O53: the loop stores the encoding, and the terminator follows it. -/
theorem hostEncodeComputesEncode : Obligations.HostEncodeComputesEncode := by
  intro h data out d hreset hholds hroom hapart
  have hdata : Apart (data + 0) d.length (out + 0) (encodeStream d).length :=
    Apart.mono hapart le_rfl le_rfl le_rfl (Nat.le_succ _)
  obtain ⟨hroomLoop, -⟩ := HostMem.room_add hroom
  obtain ⟨h', hloop, hstored, hcommands, hkeep⟩ := encodeLoop_eq (p := 0) (o := 0) hreset hholds hroomLoop hdata
  rw [Nat.zero_add, Nat.zero_add] at hloop
  obtain ⟨m, hwrite, hout, hframe⟩ := exists_memWrite_terminator hroom hstored
  refine ⟨{ h' with mem := m }, ?_, hout, hframe, hcommands, hkeep.err_eq, hkeep.pending_eq⟩
  simp only [hostEncode, hloop, hwrite, bind, Except.bind]

/-! ### HostDecode -/

/-- One turn of R159's loop decodes one token, stores its bytes and issues one command; a token of fewer than 8 leading members
ends it. -/
theorem decodeLoop_token {str out k p o : Nat} {t : List Byte} {h : HostRun} {m : HostMem}
    (hreset : h.block.resetAsserted = false) (hread : readToken h.mem (str + p) 8 = .ok t)
    (hwrite : writeBytes h.mem (out + o) (decTok (laneWord t)) = .ok m) :
    ∃ s, KeepsErrAndHost h.block s ∧
      decodeLoop str out (k + 1) p o h =
        if tokenLength (laneWord t) < 8 then
          .ok ({ mem := m, block := s, commands := h.commands + 1 }, o + (decTok (laneWord t)).length)
        else
          decodeLoop str out k (p + 8) (o + (decTok (laneWord t)).length)
            { mem := m, block := s, commands := h.commands + 1 } := by
  have hexec : ∀ u : State, u.din = laneWord t → exec .dec u =
      .next (writeResult (decodeToken (laneWord t)) (byteCount (tokenLength (laneWord t))) (tokenLength (laneWord t)) false
        (decide (tokenLength (laneWord t) < 8)) u) := by
    intro u hu
    rw [exec_dec, hu]
  obtain ⟨s₁, s₂, hdin, hcmd, hkeep, hdout, hstatus⟩ := exists_hostWrite_din_command hreset rfl hexec
  have hreset₂ : s₂.resetAsserted = false := hkeep.reset_eq.trans hreset
  have hlength := readReg_status_len ((byteCount_le _).trans (by decide)) hstatus
  have hlast := readReg_status_last hstatus
  have hdout₃ : readReg .dout { s₂ with returned := some (readReg .status s₂) } = decodeToken (laneWord t) := hdout
  have hbytes : (lanes (decodeToken (laneWord t))).take (byteCount (tokenLength (laneWord t))) = decTok (laneWord t) := rfl
  refine ⟨{ s₂ with returned := some (decodeToken (laneWord t)) }, hkeep.trans ⟨rfl, rfl, rfl⟩, ?_⟩
  simp only [decodeLoop, hread, hdin, hcmd, hostRead_eq .status s₂ hreset₂,
    hostRead_eq .dout { s₂ with returned := some (readReg .status s₂) } hreset₂, hdout₃, hlength, hlast, hbytes, hwrite,
    decTok_length, bind, Except.bind, decide_eq_true_eq]

/-- R159's loop over the tokens from character `p` on stores their decoding from `out + o` on, one command for each token. -/
theorem decodeLoop_eq {str out k p o : Nat} {cs : List Byte} {h : HostRun} (hreset : h.block.resetAsserted = false)
    (hcs : ∀ c ∈ cs, c ≠ 0x00) (hholds : h.mem.holds (str + p) (cs ++ [0x00]))
    (hroom : h.mem.room (out + o) (decodeStream (cs ++ [0x00])).length)
    (hapart : Apart (str + p) (cs.length + 1) (out + o) (decodeStream (cs ++ [0x00])).length)
    (hk : leadingMembers cs / 8 < k) :
    ∃ h', decodeLoop str out k p o h = .ok (h', o + (decodeStream (cs ++ [0x00])).length) ∧
      h.mem.Stored h'.mem (out + o) (decodeStream (cs ++ [0x00])) ∧
      h'.commands = h.commands + (leadingMembers cs / 8 + 1) ∧ KeepsErrAndHost h.block h'.block := by
  induction cs using token_induction generalizing k p o h with
  | last cs hlast =>
    obtain ⟨k, rfl⟩ := Nat.exists_eq_add_one.mpr (Nat.zero_lt_of_lt hk)
    have hlt : leadingMembers (cs ++ [0x00]) < 8 := by simpa using hlast
    have htoken : tokenLength (laneWord ((cs ++ [0x00]).take 8)) < 8 := by
      rw [tokenLength_laneWord_take]
      omega
    have hread := readToken_of_holds h.mem (str + p) 8 cs hcs hholds
    rw [decodeStream_of_lt hlt] at hroom ⊢
    obtain ⟨m, hwrite, hstored⟩ := writeBytes_of_room _ _ _ hroom
    obtain ⟨s, hkeep, hturn⟩ := decodeLoop_token (k := k) hreset hread hwrite
    rw [hturn, if_pos htoken, Nat.div_eq_of_lt hlast]
    exact ⟨_, rfl, hstored, rfl, hkeep⟩
  | full t rest h8 hm ih =>
    have hmembers : leadingMembers (t ++ rest) = 8 + leadingMembers rest := by rw [leadingMembers_append _ _ hm, h8]
    obtain ⟨k, rfl⟩ := Nat.exists_eq_add_one.mpr (Nat.zero_lt_of_lt hk)
    have htoken : ¬ tokenLength (laneWord t) < 8 := by
      rw [tokenLength_laneWord h8.le, leadingMembers_eq_length hm]
      omega
    have hread := readToken_of_holds h.mem (str + p) 8 (t ++ rest) hcs hholds
    rw [List.append_assoc] at hholds hroom hapart hread ⊢
    rw [List.take_left' h8] at hread
    rw [decodeStream_append _ h8 hm] at hroom hapart ⊢
    simp only [List.length_append] at hroom hapart ⊢
    obtain ⟨-, hholdsRest⟩ := HostMem.holds_append.mp hholds
    rw [h8] at hholdsRest
    obtain ⟨hroomToken, hroomRest⟩ := HostMem.room_add hroom
    obtain ⟨m, hwrite, hstored : h.mem.Stored m (out + o) (decTok (laneWord t))⟩ := writeBytes_of_room _ _ _ hroomToken
    obtain ⟨s, hkeep, hturn⟩ := decodeLoop_token (k := k) hreset hread hwrite
    rw [hturn, if_neg htoken]
    obtain ⟨h', hloop, hstored', hcommands : h'.commands = h.commands + 1 + _, hkeep'⟩ := ih (k := k) (p := p + 8)
      (o := o + (decTok (laneWord t)).length) (h := { mem := m, block := s, commands := h.commands + 1 })
      (hkeep.reset_eq.trans hreset) (fun c hc => hcs c (List.mem_append_right t hc))
      (hstored.holds_of_apart (by rwa [← Nat.add_assoc])
        (hapart.mono (by omega) (by rw [List.length_append, List.length_singleton]; omega) (by omega) (by omega)))
      (hstored.room (by rwa [← Nat.add_assoc])) (hapart.mono (by omega) (by omega) (by omega) (by omega)) (by omega)
    refine ⟨h', ?_, ?_, ?_, hkeep.trans hkeep'⟩
    · rw [hloop, Nat.add_assoc]
    · exact hstored.append (by rwa [Nat.add_assoc])
    · omega

/-- Settles O54: the string is no longer than memory, the loop stores its decoding, and the terminator follows it. -/
theorem hostDecodeComputesDecode : Obligations.HostDecodeComputesDecode := by
  intro h str out cs hreset hcs hholds hroom hapart
  have hstr : Apart (str + 0) (cs.length + 1) (out + 0) (decodeStream (cs ++ [0x00])).length :=
    Apart.mono hapart le_rfl le_rfl le_rfl (Nat.le_succ _)
  have hbound : leadingMembers cs / 8 < h.mem.length + 1 := by
    have hlength : cs.length + 1 ≤ h.mem.length := by simpa using length_le_of_holds _ _ _ hholds
    have hle : leadingMembers cs ≤ cs.length := leadingMembers_le cs
    omega
  obtain ⟨hroomLoop, -⟩ := HostMem.room_add hroom
  obtain ⟨h', hloop, hstored, hcommands, hkeep⟩ :=
    decodeLoop_eq (p := 0) (o := 0) hreset hcs hholds hroomLoop hstr hbound
  rw [Nat.zero_add] at hloop
  obtain ⟨m, hwrite, hout, hframe⟩ := exists_memWrite_terminator hroom hstored
  refine ⟨{ h' with mem := m }, ?_, hout, hframe, hcommands, hkeep.err_eq, hkeep.pending_eq⟩
  simp only [hostDecode, hloop, hwrite, bind, Except.bind]

end Sys2Proof.Machine
end

section
/-! Exceptions and the idle block (60_exceptions.md): no event that the port carries and no command stops the block (R53, R172),
the error state stays as the first illegal command left it and no legal command but CLR depends on it (R174), and what the block
holds while nothing happens and after power returns (R184). -/

namespace Sys2Proof.Machine

/-! ### The step by what is pending -/

/-- With nothing pending the block keeps its state (R184). -/
theorem step_of_idle {s : State} (h : s.pending = []) : step s = .next s := by
  rw [step, h]

/-- Otherwise the step is the oldest event's response, the event taken. -/
theorem step_event {s : State} {e : HostEvent} {rest : List HostEvent} (h : s.pending = e :: rest) :
    step s = respond e { s with pending := rest } := by
  rw [step, h]

/-- Settles O15: idle, the release of reset and the return of power, each by its own response. -/
theorem idleKeepsStateAndPowerRestoredResets : Obligations.IdleKeepsStateAndPowerRestoredResets :=
  ⟨fun _ => step_of_idle, fun _ _ => step_event, fun _ _ => step_event⟩

/-! ### Nothing stops the block -/

/-- Every command answers a next state: an operand out of range raises IllegalCommand, and the block goes on (R172). -/
theorem exists_exec_next (i : Instr) (s : State) : ∃ t, exec i s = .next t := by
  obtain ⟨-, he⟩ | ⟨-, he⟩ | ⟨-, c, he⟩ | ⟨-, -, -, d, l, m, hit, last, he⟩ := exec_cases i s
  all_goals exact ⟨_, he⟩

/-- A host write of a register answers a next state, for a word in CMD that is no command too (R44, R172). -/
theorem exists_writeReg_next (r : Reg) (v : Word) (s : State) : ∃ t, writeReg r v s = .next t := by
  cases r with
  | cmd =>
    rw [writeReg, writeCmd]
    cases decode v with
    | ok i => exact exists_exec_next i _
    | error c => exact ⟨_, rfl⟩
  | status => exact ⟨_, rfl⟩
  | din => exact ⟨_, rfl⟩
  | dout => exact ⟨_, rfl⟩

/-- An access that has reached a register answers a next state, under reset too (R53, R190). -/
theorem exists_accessReg_next (r : Reg) (w : Option Word) (s : State) : ∃ t, accessReg r w s = .next t := by
  cases hreset : s.resetAsserted with
  | true => cases w <;> simp [accessReg, hreset]
  | false =>
    cases w with
    | none => simp [accessReg, hreset]
    | some v => simpa only [accessReg, hreset] using exists_writeReg_next r v _

/-- Every event that the port carries is answered by a next state. -/
theorem exists_respond_next {e : HostEvent} {s : State} (h : e.carried s.codecBase) : ∃ t, respond e s = .next t := by
  cases e with
  | access a =>
    obtain ⟨hbits, h₁, h₂⟩ := h
    rw [respond, performAccess_inside hbits h₁ h₂]
    exact exists_accessReg_next _ _ s
  | assertReset => exact ⟨_, rfl⟩
  | releaseReset => exact ⟨_, rfl⟩
  | powerRestored => exact ⟨_, rfl⟩

/-- Settles O11: the idle step, the response to the oldest event, and `exec`. -/
theorem nothingStopsTheBlock : Obligations.NothingStopsTheBlock := by
  refine ⟨fun _ => step_of_idle, fun s e rest hp hcarried => ?_, exists_exec_next⟩
  rw [Goes, step_event hp]
  exact exists_respond_next hcarried

/-! ### The error state -/

/-- The state with another error state in STATUS (R32, R33). -/
abbrev State.withError (s : State) (err : Bool) (ecode : BitVec 4) : State :=
  { s with status := { s.status with err := err, ecode := ecode } }

/-- A legal command but CLR neither reads the error state nor changes it: what it writes, DIN alone determines (R174, R37). -/
theorem exec_withError {i : Instr} {s t : State} (hw : i.wf = true) (hc : i ≠ .clr) (h : exec i s = .next t) (err : Bool)
    (ecode : BitVec 4) : exec i (s.withError err ecode) = .next (t.withError err ecode) := by
  by_cases hn : i = .nop
  · subst hn
    obtain rfl : s = t := by simpa [exec, execNop] using h
    rfl
  · obtain ⟨d, l, m, hit, last, -, he⟩ := exec_writes_of_din s.din hw hn hc
    obtain rfl : writeResult d l m hit last s = t := by simpa [he s rfl] using h
    exact he _ rfl

/-- CLR leaves no trace of the error state it finds (R175). -/
theorem exec_clr_withError (s : State) (err : Bool) (ecode : BitVec 4) : exec .clr (s.withError err ecode) = exec .clr s :=
  rfl

/-- Settles O40: an illegal word finds ERR set and records nothing; CLR clears the error state, and any other legal command
leaves it aside. -/
theorem errorStateIsStickyAndInert : Obligations.ErrorStateIsStickyAndInert := by
  refine ⟨fun s v c rest h hd herr => ⟨rest, none, ?_⟩, fun i s t err ecode hw h => ?_⟩
  · rw [step_illegal h hd, takeIllegal, withIllegal_of_err _ _ herr]
  · by_cases hc : i = .clr
    · subst hc
      rw [if_pos rfl]
      exact (exec_clr_withError s err ecode).trans h
    · rw [if_neg hc]
      exact exec_withError hw hc h err ecode

end Sys2Proof.Machine
end

section
/-! The reset input (70_reset_and_hazards.md): what asserting it does to the registers, and what an access does while it is
asserted (R190). -/

namespace Sys2Proof.Machine

section
variable {s : State} (hreset : s.resetAsserted = true)
include hreset

/-- Under reset a read returns 0, whichever register it reaches. -/
theorem accessReg_read_of_reset (r : Reg) : accessReg r none s = .next { s with returned := some 0 } := by
  simp [accessReg, hreset]

/-- Under reset a write is dropped, one of a command to CMD too. -/
theorem accessReg_write_of_reset (r : Reg) (v : Word) : accessReg r (some v) s = .next { s with returned := none } := by
  simp [accessReg, hreset]

/-- Under reset an access that the port carries changes what was returned alone, and a read returns 0. -/
theorem performAccess_of_reset {a : Access} (hcarried : (HostEvent.access a).carried s.codecBase) :
    ∃ x, performAccess a s = .next { s with returned := x } ∧ (a.write = none → x = some 0) := by
  obtain ⟨hbits, h₁, h₂⟩ := hcarried
  rw [performAccess_inside hbits h₁ h₂]
  cases a.write with
  | none => exact ⟨some 0, accessReg_read_of_reset hreset _, fun _ => rfl⟩
  | some v => exact ⟨none, accessReg_write_of_reset hreset _ v, nofun⟩

end

/-- Settles O14: the response to the assertion clears the registers, and a carried access is read as 0 or dropped. -/
theorem resetInputClearsAndBlocksAccesses : Obligations.ResetInputClearsAndBlocksAccesses := by
  refine fun s rest => ⟨fun hp => ⟨rest, s.returned, step_event hp⟩, fun a hp hcarried hreset => ?_⟩
  obtain ⟨x, hstep, hread⟩ := performAccess_of_reset (s := { s with pending := rest }) hreset hcarried
  exact ⟨rest, x, (step_access hp).trans hstep, hread⟩

end Sys2Proof.Machine
end
